-- ==== Sys2Proof/Word.lean ====
section
/-! DEFINITION. The word types of the engine (R60): every quantity is unsigned and has a stated width. -/

namespace Sys2Proof

/-- 8 bits: key, IV, data and S-box bytes (R60). -/
abbrev Byte := BitVec 8

/-- 32 bits: `R1`, `R2`, `X0..X3`, `W`, `W1`, `W2`, `Z`, and the storage of an LFSR cell (R10, R60). -/
abbrev Word := BitVec 32

/-- Sixteen words: the shift register (R11). Index 0 is the oldest cell. -/
abbrev Cells := Vector Word 16

/-- Sixteen bytes: a key or an IV (R14, R34). -/
abbrev Block := Vector Byte 16

end Sys2Proof
end

