-- ==== Sys2Proof/Config.lean ====
section
/-! DEFINITION. What is fixed for the machine: the open parameters of R7 as one record, and the free values, which no
text fixes. The values the spec gives the parameters, and the constants of R6, are in Machine/Parameters.lean. -/

namespace Sys2Proof

/-! ### The open parameters of R7 -/

/-- Which half of a value a wiring takes. -/
inductive Half where
  | high
  | low
  deriving DecidableEq, Repr

/-- One input of the bit reorganisation: a half of a cell (R90). -/
structure CellHalf where
  cell : Fin 16
  half : Half
  deriving DecidableEq, Repr

/-- Two cell halves, the upper one in bits 31:16 (R90). -/
structure CellPair where
  upper : CellHalf
  lower : CellHalf
  deriving DecidableEq, Repr

/-- `BR_WIRING` (R7, R90). -/
structure BrWiring where
  x0 : CellPair
  x1 : CellPair
  x2 : CellPair
  x3 : CellPair
  deriving DecidableEq, Repr

/-- Which of the two words inside F a half is taken from (R91). -/
inductive FWord where
  | w1
  | w2
  deriving DecidableEq, Repr

/-- A half of `W1` or `W2` (R93). -/
structure FHalf where
  word : FWord
  half : Half
  deriving DecidableEq, Repr

/-- Two halves put together, the upper one in bits 31:16 (R93). -/
structure FPair where
  upper : FHalf
  lower : FHalf
  deriving DecidableEq, Repr

/-- `F_SWAP_WIRING` (R7, R93): the word that goes through `L1` to `R1` and the one that goes through `L2` to `R2`. -/
structure SwapWiring where
  throughL1 : FPair
  throughL2 : FPair
  deriving DecidableEq, Repr

/-- One term of `FEEDBACK` (R7, R82): the cell and the power of two it is multiplied by; shift 0 is the coefficient 1. -/
structure FeedbackTerm where
  cell : Fin 16
  shift : Nat
  deriving DecidableEq, Repr

/-- `KS_BYTE_ORDER` (R7, R106). -/
inductive KsByteOrder where
  | le
  | be
  deriving DecidableEq, Repr

/-- The configuration record of R7. The four proof fields say what the rules need of the values: the `D` field of a
loaded cell overlaps no other (R80), a coefficient is `2^k` with `k` below 31 (R62), and `MAX_LEN` is in the range of
the `LEN` field (R110). log 6. -/
structure Params where
  /-- `D_WIDTH` (R30). -/
  dWidth : Nat
  dWidth_le : dWidth ≤ 15
  /-- `D_TABLE[0..15]` (R71). -/
  dTable : Fin 16 → BitVec dWidth
  /-- `S0_TABLE[0..255]` (R72). -/
  s0Table : Byte → Byte
  /-- `S1_TABLE[0..255]` (R73). -/
  s1Table : Byte → Byte
  /-- `FEEDBACK` (R82), in the order the terms are accumulated. -/
  feedback : List FeedbackTerm
  feedback_shift : ∀ t ∈ feedback, t.shift < 31
  /-- `BR_WIRING` (R90). -/
  brWiring : BrWiring
  /-- `F_SWAP_WIRING` (R93). -/
  swapWiring : SwapWiring
  /-- `LANE0_IS_MSB` (R66). -/
  lane0IsMsb : Bool
  /-- `KS_BYTE_ORDER` (R106). -/
  ksByteOrder : KsByteOrder
  /-- `MAX_LEN` (R110). -/
  maxLen : Nat
  maxLen_lt : maxLen < 2 ^ 32
  /-- `CRYPT_REQUIRES_FRESH` (R104). -/
  cryptRequiresFresh : Bool

namespace Config

/-! ### Free values: constants without a body, so that nothing can be proved of them -/

/-- Cell `i` after the `draw`-th time the registers became unspecified (R23, R170). log 1. -/
opaque freeLfsr (draw : Nat) (i : Fin 16) : Word

/-- `R1` when unspecified (R23, R170). log 1. -/
opaque freeR1 (draw : Nat) : Word

/-- `R2` when unspecified (R23, R170). log 1. -/
opaque freeR2 (draw : Nat) : Word

/-- `KEY[i]` when unspecified (R23, R170). log 1. -/
opaque freeKey (draw : Nat) (i : Fin 16) : Byte

/-- `IV[i]` when unspecified (R23, R170). log 1. -/
opaque freeIv (draw : Nat) (i : Fin 16) : Byte

/-- What a failed host command's exit status is, less one (R138, U22: any non-zero value). log 21. -/
opaque freeExitStatus (errorIndex : Nat) : Nat

end Config

end Sys2Proof
end

