-- ==== Sys2Proof/Machine/Parameters.lean ====
section
/-! DEFINITION. The constants of R6 and the values R7 takes for the open parameters: the tables (R71 to R73), the
feedback (R82) and the wirings (R90, R93) of `ZUC128-STD`, and the other choices of the spec. -/

namespace Sys2Proof

namespace Config

/-! ### The constants of R6 -/

/-- `KEY_SHIFT` of the load formula (R6, R80). -/
def keyShift : Nat := 23

/-- `D_SHIFT` of the load formula (R6, R80). -/
def dShift : Nat := 8

/-- `MODULUS`, `2^31 - 1`, which is also the mask of a cell's 31 significant bits (R6). -/
def modulus : Word := 0x7FFFFFFF

/-- `INIT_ROUNDS` (R6, R101). -/
def initRounds : Nat := 32

/-- `POST_INIT_WORK_ROUNDS` (R6, R101, conflict C4). -/
def postInitWorkRounds : Nat := 1

/-- `CRYPT_WARMUP_DISCARDS` (R6, R105, conflict C4). -/
def cryptWarmupDiscards : Nat := 1

/-- `CHUNK_BYTES` (R6, R36). -/
def chunkBytes : Nat := 4

/-- `L1` rotation amounts (R6, R64). -/
def l1Rotations : List Nat := [2, 10, 18, 24]

/-- `L2` rotation amounts (R6, R65). -/
def l2Rotations : List Nat := [8, 14, 22, 30]

/-! ### `ZUC128-STD` (R71 to R73, R82, R90, R93). PRESUMED, log 5: the values are the spec's, from general knowledge. -/

/-- `D_TABLE` (R71), entry 0 first. -/
def dEntries : List (BitVec 15) :=
  [0x44D7, 0x26BC, 0x626B, 0x135E, 0x5789, 0x35E2, 0x7135, 0x09AF] ++
  [0x4D78, 0x2F13, 0x6BC4, 0x1AF1, 0x5E26, 0x3C4D, 0x789A, 0x47AC]

/-- `S0_TABLE` (R72) as the spec's hexadecimal string, 32 bytes a row, address 0 first. -/
def s0Rows : List Nat :=
  [0x3e725b47cae0003304d1549809b96dcb7b1bf932af9d6aa5b82dfc1d08530390,
   0x4d4e8499e4ced991ddb685488b296eaccdc1f81e734369c6b5bdfd396320d438,
   0x767db2a7cfed57c5f32cbb142106559be3ef5e314f7f5aa40d8251495fba581c,
   0x4a16d517a892241f8cffd8ae2e01d3ad3b4bda46ebc9de9a8f87d73a806f2fc8] ++
  [0xb1b437f70a2213287ccc3c89c7c3965607bf7ef00b2b975235417961a64c10fe,
   0xbc2695888ab0a3fbc01894f2e1e5e95dd0dc1166645cec59427512f5749caa23,
   0x0e86abbe2a02e767e644a26cc2939ff1f6fa36d250689e6271153dd640c4e20f,
   0x8e83776b25053f0c30ea70b7a1e8a9658d271adb81b3a0f4457a19dfee783460]

/-- `S1_TABLE` (R73), as `s0Rows`. -/
def s1Rows : List Nat :=
  [0x55c263713bc847869f3cda5b29aafd778cc5940ca61a1300e3a8167240f9f842,
   0x4426689681d9453e1076c6a78b3943e13ab5562ac06db3052266bfdc0bfa6248,
   0xdd20110636c9c1cff62752bb69f5d4877f844cd29c57a4bc4f9adffed68d7aeb,
   0x2b53d85ca11417fb23d57d3067730809eeb7703f61b2198e4ee54b938f5ddba9] ++
  [0xadf1ae2ecb0dfcf42d466e1d97e8d1e94d37a5755e839eab829db91ce0cd4989,
   0x01b6bd5824a25f387899159050b895e4d091c7ceed0fb46fa0ccf0024a79c3de,
   0xa3efea51e66b18ec1b2c80f774e7ff215a6a541e41319235c433070aba7e0e34,
   0x88b1987cf33d606c7bcad31f3265042864be859b2f598ad7b025acaf1203e2f2]

/-- The entry for address `a`: row `a / 32`, byte `a % 32` of it counted from the most significant (R72). -/
def rowsEntry (rows : List Nat) (a : Byte) : Byte :=
  BitVec.ofNat 8 (rows.getD (a.toNat / 32) 0 >>> (8 * (31 - a.toNat % 32)))

/-- The terms of R82 in the order it accumulates them. -/
def zucFeedback : List FeedbackTerm :=
  [⟨0, 0⟩, ⟨0, 8⟩, ⟨4, 20⟩, ⟨10, 21⟩, ⟨13, 17⟩, ⟨15, 15⟩]

/-- The wiring of R90. -/
def zucBrWiring : BrWiring where
  x0 := ⟨⟨15, .high⟩, ⟨14, .low⟩⟩
  x1 := ⟨⟨11, .low⟩, ⟨9, .high⟩⟩
  x2 := ⟨⟨7, .low⟩, ⟨5, .high⟩⟩
  x3 := ⟨⟨2, .low⟩, ⟨0, .high⟩⟩

/-- The half swap of R93: `A` through `L1`, `B` through `L2`. -/
def zucSwapWiring : SwapWiring where
  throughL1 := ⟨⟨.w1, .low⟩, ⟨.w2, .high⟩⟩
  throughL2 := ⟨⟨.w2, .low⟩, ⟨.w1, .high⟩⟩

/-- The parameters of the machine: the values R7 takes. PRESUMED (`ZUC128-STD`), log 5. -/
def params : Params where
  dWidth := 15
  dWidth_le := by decide
  dTable := fun i => dEntries.getD i.val 0
  s0Table := rowsEntry s0Rows
  s1Table := rowsEntry s1Rows
  feedback := zucFeedback
  feedback_shift := by decide
  brWiring := zucBrWiring
  swapWiring := zucSwapWiring
  lane0IsMsb := true
  ksByteOrder := .le
  maxLen := 2 ^ 32 - 1
  maxLen_lt := by decide
  cryptRequiresFresh := true

/-- `SEED0`, the open parameter of the host's KeyDeriver (R124). log 18. -/
def seed0 : Word := 0

/-- `BUFFER_CAPACITY` of the host (R127). -/
def bufferCapacity : Nat := 4096

end Config

end Sys2Proof
end

