-- ==== Sys2Proof/Syntax.lean ====
section
/-! DEFINITION. The commands: one constructor per row of the opcode table (R51). RESET is an event and no command
(R170); the micro-operations have no encoding (R57). -/

namespace Sys2Proof

/-- A command with its operands. -/
inductive Instr where
  /-- `INIT key, iv` (R46, R101). -/
  | init (key iv : Block)
  /-- `GENKW` (R47, R103). -/
  | genkw
  /-- `CRYPT data` (R48, R105); `n` is the length of `data`. -/
  | crypt (data : List Byte)
  deriving DecidableEq, Repr

end Sys2Proof
end

