-- ==== Sys2Proof/WellFormed.lean ====
section
/-! DEFINITION. Which commands a frame can carry. The 16-byte operands of INIT are 16 bytes by their type (R46); what
is left to check is the length of CRYPT's data (R52: `n > MAX_LEN` is illegal). -/

namespace Sys2Proof

/-- The command can be encoded under the parameters `c`. -/
def Instr.wellFormedFor (c : Params) : Instr → Bool
  | .init _ _ => true
  | .genkw => true
  | .crypt data => decide (data.length ≤ c.maxLen)

/-- The command can be encoded for this machine (`MAX_LEN` is `2^32 - 1`, R110). -/
def Instr.wellFormed (i : Instr) : Bool := i.wellFormedFor Config.params

end Sys2Proof
end

