-- ==== Sys2Proof/Decode.lean ====
section
/-! DEFINITION. Command frames: the decoder (R45 to R54), total on any list of bytes and rejecting by name, the encoder
written from the same tables, and the cutting of a frame out of a transport that does not delimit frames (R54). -/

namespace Sys2Proof

/-- Why a frame is illegal (R52). Every one of these raises `ILLEGAL_COMMAND` (R153). -/
inductive Reject where
  /-- The frame is empty. -/
  | emptyFrame
  /-- `OP` is not 0x01, 0x02 or 0x03. -/
  | reservedOpcode (op : Byte)
  /-- The frame's length is not the one its format requires. -/
  | frameLength (required actual : Nat)
  /-- A CRYPT frame of fewer than 5 bytes. -/
  | lenFieldMissing (actual : Nat)
  /-- `n > MAX_LEN`. -/
  | overMaxLen (n : Nat)
  deriving DecidableEq, Repr

/-- `OP` of INIT (R46, R51). -/
def opInit : Byte := 0x01

/-- `OP` of GENKW (R47, R51). -/
def opGenkw : Byte := 0x02

/-- `OP` of CRYPT (R48, R51). -/
def opCrypt : Byte := 0x03

/-- Four bytes, the first the least significant, as a 32-bit integer (R50). -/
def le32 (b0 b1 b2 b3 : Byte) : Word := b3 ++ b2 ++ b1 ++ b0

/-- A 32-bit integer as four bytes, least significant first (R35, R48, R49). -/
def le32Bytes (w : Word) : List Byte :=
  [w.extractLsb' 0 8, w.extractLsb' 8 8, w.extractLsb' 16 8, w.extractLsb' 24 8]

/-- Sixteen operand bytes from offset `start` on (R50). -/
def operandBlock (operands : List Byte) (start : Nat) : Block :=
  Vector.ofFn fun i => operands.getD (start + i.val) 0

/-- The operands of format `B` (R48, R50, R52). -/
def decodeCrypt (c : Params) : List Byte → Except Reject Instr
  | b0 :: b1 :: b2 :: b3 :: data =>
    let n := (le32 b0 b1 b2 b3).toNat
    if data.length ≠ n then .error (.frameLength (5 + n) (5 + data.length))
    else if c.maxLen < n then .error (.overMaxLen n)
    else .ok (.crypt data)
  | short => .error (.lenFieldMissing (1 + short.length))

/-- The command a frame carries under the parameters `c` (R50, R51), or why it is illegal (R52). -/
def decodeFor (c : Params) : List Byte → Except Reject Instr
  | [] => .error .emptyFrame
  | op :: operands =>
    if op = opInit then
      if operands.length = 32 then .ok (.init (operandBlock operands 0) (operandBlock operands 16))
      else .error (.frameLength 33 (1 + operands.length))
    else if op = opGenkw then
      if operands.length = 0 then .ok .genkw else .error (.frameLength 1 (1 + operands.length))
    else if op = opCrypt then decodeCrypt c operands
    else .error (.reservedOpcode op)

/-- The command a frame carries for this machine. -/
def decode (frame : List Byte) : Except Reject Instr := decodeFor Config.params frame

/-- The frame of a command (R46 to R48). -/
def encode : Instr → List Byte
  | .init key iv => opInit :: (key.toList ++ iv.toList)
  | .genkw => [opGenkw]
  | .crypt data => opCrypt :: (le32Bytes (BitVec.ofNat 32 data.length) ++ data)

/-! ### A transport that does not delimit frames (R54) -/

/-- How many bytes the frame at the head of a byte stream has, from `OP` and, for format `B`, `LEN` (R54); `none` where
the stream is too short to tell. A reserved opcode is cut as one byte (DESIGN CHOICE, log 14). -/
def requiredLength : List Byte → Option Nat
  | [] => none
  | op :: operands =>
    if op = opInit then some 33
    else if op = opGenkw then some 1
    else if op = opCrypt then
      match operands with
      | b0 :: b1 :: b2 :: b3 :: _ => some (5 + (le32 b0 b1 b2 b3).toNat)
      | _ => none
    else some 1

/-- The frame at the head of a byte stream and the rest of the stream; `none` while bytes are missing (R54). -/
def cutFrame (stream : List Byte) : Option (List Byte × List Byte) :=
  match requiredLength stream with
  | none => none
  | some n => if n ≤ stream.length then some (stream.take n, stream.drop n) else none

/-! ### The table's numbering of a frame's bits -/

/-- Byte `i` of the frame whose bits are `w`, every bit above `nbits` zero. -/
def wordByte (nbits w i : Nat) : Byte :=
  if 8 * i < nbits then BitVec.ofNat 8 ((w >>> (8 * i)) % 2 ^ min 8 (nbits - 8 * i)) else 0

/-- The first `n` bytes of it. -/
def wordBytes (nbits w n : Nat) : List Byte := (List.range n).map (wordByte nbits w)

/-- The frame whose bits are `w`: as many bytes as its opcode and length field require (R54). -/
def wordFrame (nbits w : Nat) : List Byte :=
  wordBytes nbits w ((requiredLength (wordBytes nbits w 5)).getD 1)

/-- The command the decoder reads from the frame whose bits are `w`, bit 0 the least significant bit of byte 0. -/
def decodeTableWord (nbits w : Nat) : Option Instr := (decode (wordFrame nbits w)).toOption

end Sys2Proof
end

