-- ==== Sys2Proof/Machine/Flags.lean ====
section
/-! DEFINITION. The engine has no status flags (R18). Its only carry is the one out of the 31-bit addition, which
`ADDM` consumes itself (R61). -/

namespace Sys2Proof.Machine

/-- The carry out of a 31-bit addition: bit 31 of the 32-bit sum (R61). -/
def carryOut (sum : Word) : Word := sum >>> 31

/-- `ADDM(a, b)`: addition modulo `2^31 - 1` with end-around carry (R61). -/
def addm (a b : Word) : Word := ((a + b) &&& Config.modulus) + carryOut (a + b)

end Sys2Proof.Machine
end

