-- ==== Sys2Proof/Machine/Operands.lean ====
section
/-! DEFINITION. The pure primitives over words (R62 to R68, R90, R106): rotations, the two linear maps, the S-box
layer, halves of words, and the bytes of a keyword. `+32` (R67) is the addition of `Word`. -/

namespace Sys2Proof.Machine

/-- `MULPOW2(x, k)`: multiplication by `2^k` modulo `2^31 - 1`, a 31-bit left rotation (R62). -/
def mulPow2 (x : Word) (k : Nat) : Word := ((x <<< k) ||| (x >>> (31 - k))) &&& Config.modulus

/-- `rotl32(v, k)` (R63). -/
def rotl32 (v : Word) (k : Nat) : Word := (v <<< k) ||| (v >>> (32 - k))

/-- A word XORed with its rotations by the given amounts. -/
def xorRotations (amounts : List Nat) (x : Word) : Word := amounts.foldl (fun acc k => acc ^^^ rotl32 x k) x

/-- `L1` (R64). -/
def l1 (x : Word) : Word := xorRotations Config.l1Rotations x

/-- `L2` (R65). -/
def l2 (x : Word) : Word := xorRotations Config.l2Rotations x

/-- `SBOX(x)` (R66). With lane 0 at the least significant byte the two boxes trade places (DEDUCED, log 8). -/
def sbox (c : Params) (x : Word) : Word :=
  let even := if c.lane0IsMsb then c.s0Table else c.s1Table
  let odd := if c.lane0IsMsb then c.s1Table else c.s0Table
  even (x.extractLsb' 24 8) ++ odd (x.extractLsb' 16 8) ++ even (x.extractLsb' 8 8) ++ odd (x.extractLsb' 0 8)

/-- `SHR1(W)` (R68). -/
def shr1 (w : Word) : Word := w >>> 1

/-- A half of a cell: the high half is bits 30:15, the low half bits 15:0, so bit 15 is in both (R90). -/
def cellHalf (s : Word) : Half → BitVec 16
  | .high => s.extractLsb' 15 16
  | .low => s.extractLsb' 0 16

/-- A half of a 32-bit word: bits 31:16 or bits 15:0 (R91). -/
def wordHalf (w : Word) : Half → BitVec 16
  | .high => w.extractLsb' 16 16
  | .low => w.extractLsb' 0 16

/-- `KSBYTE(Z, j)` (R106). -/
def ksByte (c : Params) (z : Word) (j : Nat) : Byte :=
  match c.ksByteOrder with
  | .le => z.extractLsb' (8 * j) 8
  | .be => z.extractLsb' (24 - 8 * j) 8

end Sys2Proof.Machine
end

