-- ==== Sys2Proof/Machine/Lfsr.lean ====
section
/-! DEFINITION. The shift register: its load and its two advances (R80 to R84). -/

namespace Sys2Proof.Machine

/-- `LFSR_LOAD` (R80): cell `i` is `0 || KEY[i] || ROM_D[i] || IV[i]`. -/
def lfsrLoad (c : Params) (key iv : Block) : Cells :=
  Vector.ofFn fun i =>
    ((key[i].setWidth 32) <<< Config.keyShift) ||| (((c.dTable i).setWidth 32) <<< Config.dShift) |||
      iv[i].setWidth 32

/-- One term of the feedback sum: the cell itself for the coefficient 1, else `MULPOW2` (R82). -/
def feedbackTerm (cells : Cells) (t : FeedbackTerm) : Word :=
  if t.shift = 0 then cells[t.cell] else mulPow2 cells[t.cell] t.shift

/-- `FEEDBACK_SUM` (R82): the terms accumulated with `ADDM` in their order. -/
def feedbackSum (c : Params) (cells : Cells) : Word :=
  match c.feedback with
  | [] => 0
  | t :: ts => ts.foldl (fun f t' => addm f (feedbackTerm cells t')) (feedbackTerm cells t)

/-- The 15-word shift (R81): every cell takes the next one's value and cell 15 takes `s16`. -/
def shiftIn (cells : Cells) (s16 : Word) : Cells :=
  Vector.ofFn fun i => if h : i.val + 1 < 16 then cells[i.val + 1] else s16

/-- `LFSR_ADVANCE_INIT(u)` (R83). -/
def advanceInit (c : Params) (cells : Cells) (u : Word) : Cells := shiftIn cells (addm (feedbackSum c cells) u)

/-- `LFSR_ADVANCE_WORK` (R84). -/
def advanceWork (c : Params) (cells : Cells) : Cells := shiftIn cells (feedbackSum c cells)

end Sys2Proof.Machine
end

