-- ==== Sys2Proof/Machine/State.lean ====
section
/-! DEFINITION. The state of one engine (R10) and of its ports (R45), what can end a step, and the state after reset
(R23). -/

namespace Sys2Proof.Machine

/-- `phase` (R15). Encoding 3 is never held. -/
inductive Phase where
  /-- No INIT has completed since the last reset. -/
  | reset
  /-- An INIT has completed and no keyword has been drawn since. -/
  | fresh
  /-- At least one keyword has been drawn since the last INIT. -/
  | running
  deriving DecidableEq, Repr

/-- The three faults of the engine (R151). -/
inductive FaultCode where
  | illegalCommand
  | notInitialised
  | notFresh
  deriving DecidableEq, Repr

/-- What an `OK` response carries (R49). -/
inductive Payload where
  | empty
  | keyword (z : Word)
  | data (bytes : List Byte)
  deriving DecidableEq, Repr

/-- A response (R49). -/
inductive Response where
  | ok (payload : Payload)
  | fault (code : FaultCode)
  deriving DecidableEq, Repr

/-- What the host can do to the engine (R45, R182): the RESET event, or a command frame delivered whole. -/
inductive HostEvent where
  | reset
  | command (frame : List Byte)
  deriving DecidableEq, Repr

/-- The registers the keystream is computed from: `LFSR`, `R1`, `R2` (R10). -/
structure CipherRegs where
  lfsr : Cells
  r1 : Word
  r2 : Word
  deriving DecidableEq, Repr

/-- The machine. The first five fields are the whole architectural state (R10); the last three are the model's own. -/
structure State where
  /-- `LFSR[0..15]`, `R1`, `R2`. -/
  cipher : CipherRegs
  /-- `KEY[0..15]` (R14). -/
  key : Block
  /-- `IV[0..15]` (R14). -/
  iv : Block
  /-- `phase` (R15). -/
  phase : Phase
  /-- The sticky latch `fault` (R16); `none` is `NONE`. -/
  fault : Option FaultCode
  /-- The host's events not yet delivered, oldest first (R45, R182; log 3). -/
  inbox : List HostEvent
  /-- The responses delivered so far, oldest first (R45, R49; log 3). -/
  responses : List Response
  /-- How many times the registers have become unspecified (R170; log 2). -/
  resets : Nat
  deriving DecidableEq, Repr

/-- What stops the machine. The engine's own faults (R151) do not: they are latched and answered (R152, log 10). -/
inductive Fault where
  /-- Raised by `memRead` and `memWrite` on an offset at or above the data buffer's length, which does not exist (R33).
  Safe: the model stops. CRYPT never makes such an access. -/
  | bufferOffset (offset length : Nat)
  deriving DecidableEq, Repr

/-- What the model gives no meaning to. -/
inductive Refusal where
  /-- Raised by an arm of `exec` whose command has no meaning yet; no arm does. Safe. -/
  | notModelled (mnemonic : String)
  deriving DecidableEq, Repr

/-- Cipher registers that hold no value: free values (R23, R170). DESIGN CHOICE, log 1. -/
def CipherRegs.unspecified (draw : Nat) : CipherRegs where
  lfsr := Vector.ofFn (Config.freeLfsr draw)
  r1 := Config.freeR1 draw
  r2 := Config.freeR2 draw

/-- The machine right after reset (R23): phase RESET, no fault latched, every cipher register unspecified, nothing on
the ports. DESIGN CHOICE for the unspecified registers and the model's own fields, log 1, log 2, log 3. -/
def State.reset : State where
  cipher := .unspecified 0
  key := Vector.ofFn (Config.freeKey 0)
  iv := Vector.ofFn (Config.freeIv 0)
  phase := .reset
  fault := none
  inbox := []
  responses := []
  resets := 1

end Sys2Proof.Machine
end

