-- ==== Sys2Proof/Machine/Rounds.lean ====
section
/-! DEFINITION. Bit reorganisation (R90), the nonlinear function F (R91 to R93), the three rounds (R94 to R97), and
the sequences of rounds the commands are made of. -/

namespace Sys2Proof.Machine

/-- The four outputs of the bit reorganisation. -/
structure XWords where
  x0 : Word
  x1 : Word
  x2 : Word
  x3 : Word
  deriving DecidableEq, Repr

/-- Two cell halves side by side. -/
def joinCells (cells : Cells) (p : CellPair) : Word :=
  cellHalf cells[p.upper.cell] p.upper.half ++ cellHalf cells[p.lower.cell] p.lower.half

/-- `BITREORG` (R90). -/
def bitReorg (c : Params) (cells : Cells) : XWords where
  x0 := joinCells cells c.brWiring.x0
  x1 := joinCells cells c.brWiring.x1
  x2 := joinCells cells c.brWiring.x2
  x3 := joinCells cells c.brWiring.x3

/-- A half of `W1` or of `W2`. -/
def fHalf (w1 w2 : Word) (h : FHalf) : BitVec 16 :=
  match h.word with
  | .w1 => wordHalf w1 h.half
  | .w2 => wordHalf w2 h.half

/-- Two halves of `W1`, `W2` side by side (R93). -/
def joinHalves (w1 w2 : Word) (p : FPair) : Word := fHalf w1 w2 p.upper ++ fHalf w1 w2 p.lower

/-- What `F` returns and leaves in `R1`, `R2`. -/
structure FResult where
  w : Word
  r1 : Word
  r2 : Word
  deriving DecidableEq, Repr

/-- `F(X0, X1, X2)` (R91): all of `W`, `W1`, `W2` from the old `R1`, `R2` (R92). -/
def nonlinearF (c : Params) (r1 r2 x0 x1 x2 : Word) : FResult :=
  let w1 := r1 + x1
  let w2 := r2 ^^^ x2
  { w := (x0 ^^^ r1) + r2
    r1 := sbox c (l1 (joinHalves w1 w2 c.swapWiring.throughL1))
    r2 := sbox c (l2 (joinHalves w1 w2 c.swapWiring.throughL2)) }

/-- `F` on the registers' own reorganised cells, with which every round starts (R94). -/
def roundF (c : Params) (r : CipherRegs) : FResult :=
  let x := bitReorg c r.lfsr
  nonlinearF c r.r1 r.r2 x.x0 x.x1 x.x2

/-- The keystream word the registers give next: `F(X0, X1, X2) ^ X3` (R95). -/
def keywordOf (c : Params) (r : CipherRegs) : Word := (roundF c r).w ^^^ (bitReorg c r.lfsr).x3

/-- What `KEYWORD` leaves in the registers (R95). -/
def afterKeyword (c : Params) (r : CipherRegs) : CipherRegs :=
  let f := roundF c r
  { lfsr := advanceWork c r.lfsr, r1 := f.r1, r2 := f.r2 }

/-- `INIT_ROUND` (R96). -/
def initRound (c : Params) (r : CipherRegs) : CipherRegs :=
  let f := roundF c r
  { lfsr := advanceInit c r.lfsr (shr1 f.w), r1 := f.r1, r2 := f.r2 }

/-- `WORK_ROUND_DISCARD` (R97): `W` is discarded, `R1` and `R2` are updated, the advance folds nothing in. -/
def workRoundDiscard (c : Params) (r : CipherRegs) : CipherRegs :=
  let f := roundF c r
  { lfsr := advanceWork c r.lfsr, r1 := f.r1, r2 := f.r2 }

/-- A round done `n` times. -/
def repeatRound (round : CipherRegs → CipherRegs) : Nat → CipherRegs → CipherRegs
  | 0, r => r
  | n + 1, r => repeatRound round n (round r)

/-- The registers after `n` keywords have been drawn. -/
def afterKeywords (c : Params) (n : Nat) (r : CipherRegs) : CipherRegs := repeatRound (afterKeyword c) n r

/-- The registers right after the load: the cells of R80, `R1 = R2 = 0` (R101). -/
def loadedRegs (c : Params) (key iv : Block) : CipherRegs where
  lfsr := lfsrLoad c key iv
  r1 := 0
  r2 := 0

/-- The registers INIT leaves: load, 32 initialisation rounds, one discarded work round (R101). -/
def initialRegs (c : Params) (key iv : Block) : CipherRegs :=
  repeatRound (workRoundDiscard c) Config.postInitWorkRounds
    (repeatRound (initRound c) Config.initRounds (loadedRegs c key iv))

end Sys2Proof.Machine
end

