-- ==== Sys2Proof/Machine/Ops.lean ====
section
/-! DEFINITION. The operations every command shares: answering, raising a fault (R152), refusing while a fault is
latched (R100 step 1), the RESET event (R170), the data buffer (R33), and the bytes of a response (R49). -/

namespace Sys2Proof.Machine

/-- What a meaning answers. -/
abbrev Result := Host.Outcome State Fault Refusal

/-! ### Encodings of the control fields and of the responses -/

/-- The 2-bit encoding of `phase` (R15, R19). -/
def Phase.code : Phase → BitVec 2
  | .reset => 0
  | .fresh => 1
  | .running => 2

/-- The code of a fault (R151). -/
def FaultCode.code : FaultCode → Byte
  | .illegalCommand => 1
  | .notInitialised => 2
  | .notFresh => 3

/-- The 2-bit encoding of the latch `fault` (R16, R19). -/
def latchCode : Option FaultCode → BitVec 2
  | none => 0
  | some f => f.code.setWidth 2

/-- The bytes of a payload (R49): `Z` least significant byte first, whatever `KS_BYTE_ORDER` is. -/
def Payload.bytes : Payload → List Byte
  | .empty => []
  | .keyword z => le32Bytes z
  | .data bytes => bytes

/-- The response frame (R49). -/
def Response.frame : Response → List Byte
  | .ok payload => 0x00 :: payload.bytes
  | .fault code => [code.code]

/-! ### Answering and raising -/

/-- One response on the response port (R45). -/
def respond (s : State) (r : Response) : State := { s with responses := s.responses ++ [r] }

/-- `raise Fault(code)` (R152): the latch keeps the first code, the response is `FAULT(code)`, nothing else changes. -/
def raiseFault (code : FaultCode) (s : State) : State :=
  respond { s with fault := s.fault.or (some code) } (.fault code)

/-- Step 1 of the dispatch (R100): while a fault is latched every command is answered with it and changes no state;
otherwise `act`. -/
def unlessLatched (s : State) (act : Result) : Result :=
  match s.fault with
  | some code => .next (respond s (.fault code))
  | none => act

/-- Step 2 of the dispatch (R100, R153): what an illegal frame does. -/
def illegalFrame (s : State) : Result := unlessLatched s (.next (raiseFault .illegalCommand s))

/-- The RESET event (R170): the registers become unspecified, by free values that nothing has drawn before. -/
def resetEvent (s : State) : State :=
  { s with
    cipher := .unspecified s.resets
    key := Vector.ofFn (Config.freeKey s.resets)
    iv := Vector.ofFn (Config.freeIv s.resets)
    phase := .reset
    fault := none
    resets := s.resets + 1 }

/-- The oldest event on the ports and the state without it (R182). -/
def takeEvent (s : State) : Option (HostEvent × State) :=
  match s.inbox with
  | [] => none
  | e :: rest => some (e, { s with inbox := rest })

/-! ### The data buffer of one CRYPT (R33) -/

/-- `n` bytes at offsets `0` to `n - 1`. -/
abbrev DataBuffer := List Byte

/-- `MemRead(a, 1)` (R8, R33): offsets at or above `n` do not exist. -/
def memRead (buf : DataBuffer) (a : Nat) : Except Fault Byte :=
  match buf[a]? with
  | some v => .ok v
  | none => .error (.bufferOffset a buf.length)

/-- `MemWrite(a, 1, v)` (R8, R33). -/
def memWrite (buf : DataBuffer) (a : Nat) (v : Byte) : Except Fault DataBuffer :=
  if a < buf.length then .ok (buf.set a v) else .error (.bufferOffset a buf.length)

/-- `MemWrite(a, 1, MemRead(a, 1) ^ k)` (R105). -/
def memXor (buf : DataBuffer) (a : Nat) (k : Byte) : Except Fault DataBuffer :=
  match memRead buf a with
  | .error e => .error e
  | .ok v => memWrite buf a (v ^^^ k)

end Sys2Proof.Machine
end

