-- ==== Sys2Proof/Machine/Commands.lean ====
section
/-! DEFINITION. The meanings of the three commands (R101 to R110). Each is given for every value of the parameters
(`runInit`, `runGenkw`, `runCrypt`) and then for this machine's (`execInit`, `execGenkw`, `execCrypt`), behind the
latch check of R100. -/

namespace Sys2Proof.Machine

/-- `INIT key, iv` with no fault latched (R101, R102): accepted in every phase. -/
def runInit (c : Params) (key iv : Block) (s : State) : Result :=
  .next (respond { s with key := key, iv := iv, cipher := initialRegs c key iv, phase := .fresh } (.ok .empty))

/-- `GENKW` with no fault latched (R103). -/
def runGenkw (c : Params) (s : State) : Result :=
  let draw : Result :=
    .next (respond { s with cipher := afterKeyword c s.cipher, phase := .running }
      (.ok (.keyword (keywordOf c s.cipher))))
  match s.phase with
  | .reset => .next (raiseFault .notInitialised s)
  | .fresh => draw
  | .running => draw

/-- The inner loop of R105 on one chunk: byte `j` of the chunk that starts at `base` meets `KSBYTE(Z, j)`, for `left`
bytes from `j` on. -/
def xorChunk (c : Params) (z : Word) (base : Nat) : (left j : Nat) → DataBuffer → Except Fault DataBuffer
  | 0, _, buf => .ok buf
  | left + 1, j, buf =>
    match memXor buf (base + j) (ksByte c z j) with
    | .error e => .error e
    | .ok buf' => xorChunk c z base left (j + 1) buf'

/-- The outer loop of R105 on a buffer of `n` bytes: one keyword for each of the `left` chunks from chunk `i` on; the
last chunk may be short (R36, R108). -/
def cryptChunks (c : Params) (n : Nat) :
    (left i : Nat) → CipherRegs → DataBuffer → Except Fault (CipherRegs × DataBuffer)
  | 0, _, r, buf => .ok (r, buf)
  | left + 1, i, r, buf =>
    match xorChunk c (keywordOf c r) (Config.chunkBytes * i) (min Config.chunkBytes (n - Config.chunkBytes * i)) 0 buf with
    | .error e => .error e
    | .ok buf' => cryptChunks c n left (i + 1) (afterKeyword c r) buf'

/-- `ceil(n / 4)` as R105 computes it. -/
def chunkCount (n : Nat) : Nat := n / Config.chunkBytes + (if n % Config.chunkBytes = 0 then 0 else 1)

/-- The body of `CRYPT` (R105): the warm-up keyword is drawn and discarded, then the chunks. -/
def cryptBody (c : Params) (data : List Byte) (s : State) : Result :=
  match cryptChunks c data.length (chunkCount data.length) 0
      (afterKeywords c Config.cryptWarmupDiscards s.cipher) data with
  | .error e => .fault e
  | .ok (r, buf) => .next (respond { s with cipher := r, phase := .running } (.ok (.data buf)))

/-- `CRYPT data` with no fault latched (R104, R105). Where `CRYPT_REQUIRES_FRESH` is false, phase RUNNING runs the same
body on the registers as they are (D6, log 7). -/
def runCrypt (c : Params) (data : List Byte) (s : State) : Result :=
  match s.phase with
  | .reset => .next (raiseFault .notInitialised s)
  | .fresh => cryptBody c data s
  | .running => if c.cryptRequiresFresh then .next (raiseFault .notFresh s) else cryptBody c data s

/-- The meaning of `INIT` (R100, R101). -/
def execInit (key iv : Block) (s : State) : Result := unlessLatched s (runInit Config.params key iv s)

/-- The meaning of `GENKW` (R100, R103). -/
def execGenkw (s : State) : Result := unlessLatched s (runGenkw Config.params s)

/-- The meaning of `CRYPT` (R100, R104, R105). -/
def execCrypt (data : List Byte) (s : State) : Result := unlessLatched s (runCrypt Config.params data s)

end Sys2Proof.Machine
end

