-- ==== Sys2Proof/Machine/Dispatch.lean ====
section
/-! DEFINITION. One arm per command (R100 steps 3 to 5). -/

namespace Sys2Proof.Machine

def exec (i : Instr) (s : State) : Host.Outcome State Fault Refusal :=
  match i with
  -- R101
  | .init key iv => Sys2Proof.Machine.execInit key iv s
  -- R103
  | .genkw => Sys2Proof.Machine.execGenkw s
  -- R104, R105
  | .crypt data => Sys2Proof.Machine.execCrypt data s

end Sys2Proof.Machine
end

