-- ==== Sys2Proof/Machine/Port.lean ====
section
/-! DEFINITION. What one event on the ports does (R100, R170), and how a command comes to stand next on the command
port. -/

namespace Sys2Proof.Machine

/-- A command frame (R100): an illegal one raises ILLEGAL_COMMAND, any other runs the command it carries. The latch
check of step 1 stands in `illegalFrame` and in every meaning (log 9). -/
def deliverFrame (frame : List Byte) (s : State) : Result :=
  match decode frame with
  | .error _ => illegalFrame s
  | .ok i => exec i s

/-- One event: RESET (R170) or a command frame (R100). -/
def deliver (e : HostEvent) (s : State) : Result :=
  match e with
  | .reset => .next (resetEvent s)
  | .command frame => deliverFrame frame s

/-- The state with an event to be delivered before all that wait. -/
def State.withNextEvent (s : State) (e : HostEvent) : State := { s with inbox := e :: s.inbox }

/-- The state with events to be delivered after all that wait. -/
def State.withEvents (s : State) (es : List HostEvent) : State := { s with inbox := s.inbox ++ es }

end Sys2Proof.Machine
end

