-- ==== Sys2Proof/Machine/Step.lean ====
section
/-! DEFINITION. One step: the oldest event on the ports is delivered; with none waiting the engine waits (R166, R182). -/

namespace Sys2Proof.Machine

/-- One step of the engine. -/
def step (s : State) : Host.Outcome State Fault Refusal :=
  match takeEvent s with
  | none => .next s
  | some (e, s') => deliver e s'

/-- The state with the frame whose bits are `w` next on the command port (log 4). -/
def State.withFetchWord (s : State) (nbits w : Nat) : State := s.withNextEvent (.command (wordFrame nbits w))

end Sys2Proof.Machine
end

