-- ==== Sys2Proof/Machine/KeyDeriver.lean ====
section
/-! DEFINITION. The host's KeyDeriver (R121 to R126) and the host's error taxonomy (R137). Host software: no rule of
the engine depends on it. -/

namespace Sys2Proof.Machine

/-- The host's errors (R137). The engine raises none of them (R150). -/
inductive HostError where
  | keyLength
  | format
  | truncated
  | integrity
  | alreadyEncrypted
  | emptyInput
  | capacityExceeded
  | io
  deriving DecidableEq, Repr

/-- The 256-byte buffer derived from a password (R122). -/
abbrev ExpandedKey := Vector Byte 256

/-- The seed (R124): the fold of the password bytes from `SEED0`. -/
def seedOf (seed0 : Word) (password : List Byte) : Word :=
  password.foldl (fun seed b => seed * 31 + b.setWidth 32) seed0

/-- The generator's update (R125). -/
def lcgUpdate (state : Word) : Word := state * 1103515245 + 12345

/-- The generator's output, 15 bits of the state after the update (R125). -/
def lcgOutput (state : Word) : Word := (state >>> 16) &&& 0x7FFF

/-- Password byte `k mod length` (R126). -/
def passwordByte (password : List Byte) (k : Nat) : Byte := password.getD (k % password.length) 0

/-- Byte `i` of the buffer from the generator's output (R126). -/
def mixByte (password : List Byte) (i : Nat) (output : Word) : Byte :=
  (List.range (i % 3)).foldl (fun v j => v + passwordByte password j)
    (output.setWidth 8 ^^^ passwordByte password i)

/-- `left` bytes of the buffer from byte `i` on, `state` being the generator's state before byte `i` (R126). -/
def expandFrom (password : List Byte) : (left i : Nat) → Word → List Byte
  | 0, _, _ => []
  | left + 1, i, state =>
    mixByte password i (lcgOutput (lcgUpdate state)) :: expandFrom password left (i + 1) (lcgUpdate state)

theorem expandFrom_length (password : List Byte) (left i : Nat) (state : Word) :
    (expandFrom password left i state).length = left := by
  induction left generalizing i state with
  | zero => rfl
  | succ left ih => simp [expandFrom, ih]

/-- `expand(password, length)` (R123). -/
def expand (seed0 : Word) (password : List Byte) : Except HostError ExpandedKey :=
  if 4 ≤ password.length ∧ password.length ≤ 64 then
    .ok ⟨(expandFrom password 256 0 (seedOf seed0 password)).toArray, by simp [expandFrom_length]⟩
  else .error .keyLength

/-- The engine's key (R121). -/
def ExpandedKey.cipherKey (ek : ExpandedKey) : Block := Vector.ofFn fun i => ek[i.val]

/-- The engine's IV (R121). -/
def ExpandedKey.cipherIv (ek : ExpandedKey) : Block := Vector.ofFn fun i => ek[16 + i.val]

end Sys2Proof.Machine
end

