-- ==== Sys2Proof/Machine/Script.lean ====
section
/-! DEFINITION. Runs of the engine (R182) and the textual command sequences of R55 and R56 with their
pseudo-instructions. -/

namespace Sys2Proof.Machine

/-- `n` steps, ending early where a step does not answer a next state. -/
def runSteps : Nat → State → Result
  | 0, s => .next s
  | n + 1, s =>
    match step s with
    | .next s' => runSteps n s'
    | .fault r => .fault r
    | .refused r => .refused r

/-- A run (R182): the events are put on the ports and all of them are delivered. -/
def runEvents (es : List HostEvent) (s : State) : Result := runSteps (s.inbox.length + es.length) (s.withEvents es)

/-- The event that issues a command. -/
def issue (i : Instr) : HostEvent := .command (encode i)

/-- A line of R55. -/
inductive AsmLine where
  | reset
  | init (key iv : Block)
  | genkw
  | crypt (data : List Byte)
  /-- `CRYPT "text"`: the bytes of an ASCII text (log 23). -/
  | cryptText (text : String)
  deriving DecidableEq, Repr

/-- The bytes of an ASCII text; a newline is 0x0A (R55). -/
def asciiBytes (text : String) : List Byte := text.toList.map fun ch => BitVec.ofNat 8 ch.toNat

/-- The event a line stands for (R55). -/
def AsmLine.event : AsmLine → HostEvent
  | .reset => .reset
  | .init key iv => issue (.init key iv)
  | .genkw => issue .genkw
  | .crypt data => issue (.crypt data)
  | .cryptText text => issue (.crypt (asciiBytes text))

/-- A pseudo-instruction of R56. -/
inductive Pseudo where
  | new (key iv : Block)
  | encrypt (key iv : Block) (data : List Byte)
  | decrypt (key iv : Block) (data : List Byte)
  | keystream (k : Nat)
  deriving DecidableEq, Repr

/-- The expansions of R56. -/
def Pseudo.expand : Pseudo → List AsmLine
  | .new key iv => [.reset, .init key iv]
  | .encrypt key iv data => [.reset, .init key iv, .crypt data]
  | .decrypt key iv data => [.reset, .init key iv, .crypt data]
  | .keystream k => List.replicate k .genkw

/-- The events of a pseudo-instruction. -/
def Pseudo.events (p : Pseudo) : List HostEvent := p.expand.map AsmLine.event

/-- A hexadecimal digit. -/
def hexDigit (n : Nat) : Char := "0123456789ABCDEF".toList.getD n '0'

/-- Bytes in offset order, each most significant digit first (R55). -/
def hexText (bytes : List Byte) : String :=
  String.ofList (bytes.flatMap fun b => [hexDigit (b.toNat / 16), hexDigit (b.toNat % 16)])

/-- A character of a quoted text: a newline is written as a backslash and an n (R55). -/
def quotedChar (ch : Char) : List Char := if ch = '\n' then ['\\', 'n'] else [ch]

/-- How a line is written (R55). -/
def AsmLine.text : AsmLine → String
  | .reset => "RESET"
  | .init key iv => "INIT  key=" ++ hexText key.toList ++ ", iv=" ++ hexText iv.toList
  | .genkw => "GENKW"
  | .crypt data => if data.isEmpty then "CRYPT (empty)" else "CRYPT " ++ hexText data
  | .cryptText text => "CRYPT \"" ++ String.ofList (text.toList.flatMap quotedChar) ++ "\""

end Sys2Proof.Machine
end

