-- ==== Sys2Proof/Machine/Container.lean ====
section
/-! DEFINITION. The host's Container Codec (R127 to R135): header, checksum, and the four operations, which reach the
engine only through RESET, INIT and CRYPT. Host software: no rule of the engine depends on it. -/

namespace Sys2Proof.Machine

/-- Why a host operation stops: an error of R137, or an engine fault, which in this host never occurs (R167, log 22). -/
inductive HostStop where
  | error (e : HostError)
  | engineFault
  deriving DecidableEq, Repr

/-- The magic tag `"ENC1"` (R127, R128). -/
def magic : List Byte := [0x45, 0x4E, 0x43, 0x31]

/-- `ContainerHeader` without its fixed magic (R127): two 32-bit integers, read as signed. -/
structure ContainerHeader where
  originalSize : Word
  checksum : Word
  deriving DecidableEq, Repr

/-- The length of a header (R127). -/
def headerLength : Nat := 12

/-- The largest plaintext, `BUFFER_CAPACITY - 12` (R127, R135). -/
def maxPlaintext : Nat := Config.bufferCapacity - headerLength

/-- `checksum(data, length)` (R129). -/
def checksum (data : List Byte) : Word := data.foldl (fun sum b => ((sum + b.setWidth 32) * 31) &&& 0xFFFFFF) 0

/-- `is_container(bytes)` (R130). -/
def isContainer (bytes : List Byte) : Bool := decide (bytes.take 4 = magic)

/-- The bytes of a header (R128). -/
def ContainerHeader.bytes (h : ContainerHeader) : List Byte := magic ++ le32Bytes h.originalSize ++ le32Bytes h.checksum

/-- The 32-bit integer at an offset, least significant byte first (R128). -/
def wordAt (bytes : List Byte) (offset : Nat) : Word :=
  le32 (bytes.getD offset 0) (bytes.getD (offset + 1) 0) (bytes.getD (offset + 2) 0) (bytes.getD (offset + 3) 0)

/-- Step 1 of `decrypt` (R132, D37): a size outside 1 to 4084 is a format error too. -/
def parseHeader (container : List Byte) : Except HostError ContainerHeader :=
  let h : ContainerHeader := ⟨wordAt container 4, wordAt container 8⟩
  if container.length < headerLength then .error .format
  else if ¬ isContainer container then .error .format
  else if h.originalSize.toInt ≤ 0 ∨ (maxPlaintext : Int) < h.originalSize.toInt then .error .format
  else .ok h

/-- `crypt` on a fresh engine (R56 `ENCRYPT`, R131 step 4, R142): the three events are run from reset and the data of
the second response is the result. -/
def freshCrypt (key iv : Block) (data : List Byte) : Except HostStop (List Byte) :=
  match runEvents (Pseudo.encrypt key iv data).events State.reset with
  | .next s =>
    match s.responses with
    | [.ok .empty, .ok (.data out)] => .ok out
    | _ => .error .engineFault
  | _ => .error .engineFault

/-- Steps 3 to 5 of `encrypt` (R131). -/
def sealPlaintext (ek : ExpandedKey) (plaintext : List Byte) : Except HostStop (List Byte) :=
  match freshCrypt ek.cipherKey ek.cipherIv plaintext with
  | .error e => .error e
  | .ok ciphertext =>
    .ok (ContainerHeader.bytes ⟨BitVec.ofNat 32 plaintext.length, checksum plaintext⟩ ++ ciphertext)

/-- The capacity rule, strict (R135). -/
def checkCapacity (plaintext : List Byte) : Except HostError Unit :=
  if maxPlaintext < plaintext.length then .error .capacityExceeded else .ok ()

/-- Steps 1 and 2 of `encrypt`, then the capacity rule (R131, R135; the order is log 19). -/
def checkPlaintext (plaintext : List Byte) : Except HostError Unit :=
  if isContainer plaintext then .error .alreadyEncrypted
  else if plaintext.isEmpty then .error .emptyInput
  else checkCapacity plaintext

/-- `encrypt` with the key material given by the caller (R131, R144). -/
def encryptWith (ek : ExpandedKey) (plaintext : List Byte) : Except HostStop (List Byte) :=
  match checkPlaintext plaintext with
  | .error e => .error (.error e)
  | .ok _ => sealPlaintext ek plaintext

/-- Steps 3 to 5 of `decrypt` (R132): what follows the first `original_size` bytes is ignored. -/
def openCiphertext (ek : ExpandedKey) (h : ContainerHeader) (body : List Byte) : Except HostStop (List Byte) :=
  match freshCrypt ek.cipherKey ek.cipherIv (body.take h.originalSize.toNat) with
  | .error e => .error e
  | .ok plaintext => if checksum plaintext = h.checksum then .ok plaintext else .error (.error .integrity)

/-- Steps 1 and 2 of `decrypt` (R132). -/
def checkContainer (container : List Byte) : Except HostError ContainerHeader :=
  match parseHeader container with
  | .error e => .error e
  | .ok h => if (container.drop headerLength).length < h.originalSize.toNat then .error .truncated else .ok h

/-- `decrypt` with the key material given by the caller (R132, R144). -/
def decryptWith (ek : ExpandedKey) (container : List Byte) : Except HostStop (List Byte) :=
  match checkContainer container with
  | .error e => .error (.error e)
  | .ok h => openCiphertext ek h (container.drop headerLength)

/-- The separator of `append` and `prepend` (R133). -/
def newline : Byte := 0x0A

/-- `decrypt`, then steps 3 to 5 of `encrypt` over a new plaintext made from the old one (R133, R135). -/
def reseal (ek : ExpandedKey) (container : List Byte) (combine : List Byte → List Byte) :
    Except HostStop (List Byte) :=
  match decryptWith ek container with
  | .error e => .error e
  | .ok old =>
    match checkCapacity (combine old) with
    | .error e => .error (.error e)
    | .ok _ => sealPlaintext ek (combine old)

/-- `append` (R133). -/
def appendWith (ek : ExpandedKey) (container extra : List Byte) : Except HostStop (List Byte) :=
  reseal ek container fun old => old ++ newline :: extra

/-- `prepend` (R134). -/
def prependWith (ek : ExpandedKey) (container extra : List Byte) : Except HostStop (List Byte) :=
  reseal ek container fun old => extra ++ newline :: old

/-! ### The operations from a password (R131 to R134); the key is derived where the steps say so -/

/-- The key material of a password, an error being the host's. -/
def deriveKey (seed0 : Word) (password : List Byte) : Except HostStop ExpandedKey :=
  match expand seed0 password with
  | .error e => .error (.error e)
  | .ok ek => .ok ek

/-- `encrypt(password, plaintext)` (R131). -/
def encrypt (seed0 : Word) (password plaintext : List Byte) : Except HostStop (List Byte) :=
  match checkPlaintext plaintext with
  | .error e => .error (.error e)
  | .ok _ =>
    match deriveKey seed0 password with
    | .error e => .error e
    | .ok ek => sealPlaintext ek plaintext

/-- An operation on an existing container: steps 1 and 2 of `decrypt` (R132), then the key, then the rest. -/
def onContainer (seed0 : Word) (password container : List Byte)
    (operation : ExpandedKey → Except HostStop (List Byte)) : Except HostStop (List Byte) :=
  match checkContainer container with
  | .error e => .error (.error e)
  | .ok _ =>
    match deriveKey seed0 password with
    | .error e => .error e
    | .ok ek => operation ek

/-- `decrypt(password, container_bytes)` (R132). -/
def decrypt (seed0 : Word) (password container : List Byte) : Except HostStop (List Byte) :=
  onContainer seed0 password container fun ek => decryptWith ek container

/-- `append(password, container_bytes, extra_text)` (R133). -/
def append (seed0 : Word) (password container extra : List Byte) : Except HostStop (List Byte) :=
  onContainer seed0 password container fun ek => appendWith ek container extra

/-- `prepend(password, container_bytes, extra_text)` (R134). -/
def prepend (seed0 : Word) (password container extra : List Byte) : Except HostStop (List Byte) :=
  onContainer seed0 password container fun ek => prependWith ek container extra

end Sys2Proof.Machine
end

