-- ==== Sys2Proof/Machine/HostFiles.lean ====
section
/-! DEFINITION. The host's files: the key file (R136), the FileIO contract (R140), the write policy (R139), how an
invoking command ends (R138), and the commands that rewrite or read a container in place (R120, R139). FileIO itself is
an external collaborator (spec scope, OSWORK §1); here it is a list of files and an outcome the environment gives each
read and each write (log 20). -/

namespace Sys2Proof.Machine

/-- The named files, at most one entry a name in use: the first one counts. -/
structure FileStore where
  files : List (String × List Byte)
  deriving DecidableEq, Repr

/-- What a file holds; `none` where it does not exist. -/
def FileStore.contents (fs : FileStore) (path : String) : Option (List Byte) := fs.files.lookup path

/-- What the environment makes of a read (R140: `read(path) -> bytes | IoError`). -/
inductive ReadOutcome where
  | done
  | failed
  deriving DecidableEq, Repr

/-- `read(path)` (R140): an error where the file does not exist, and where the read of an existing file fails. -/
def FileStore.read (fs : FileStore) (path : String) : ReadOutcome → Except HostError (List Byte)
  | .done =>
    match fs.contents path with
    | some bytes => .ok bytes
    | none => .error .io
  | .failed => .error .io

/-- A read of a range of bytes (R120, R140): up to `count` bytes from `offset` on. -/
def FileStore.readRange (fs : FileStore) (path : String) (offset count : Nat) (outcome : ReadOutcome) :
    Except HostError (List Byte) :=
  match fs.read path outcome with
  | .error e => .error e
  | .ok bytes => .ok ((bytes.drop offset).take count)

/-- The files with one replaced whole. -/
def FileStore.replace (fs : FileStore) (path : String) (bytes : List Byte) : FileStore :=
  ⟨(path, bytes) :: fs.files.filter fun f => f.1 ≠ path⟩

/-- What the environment makes of a truncate-then-write (R139). -/
inductive WriteOutcome where
  | done
  | failedBeforeTruncation
  | failedAfterTruncation
  deriving DecidableEq, Repr

/-- The outcomes of the accesses of one command (log 20): the read of the key file, the read of the file, the write. -/
structure FileOutcomes where
  keyRead : ReadOutcome
  fileRead : ReadOutcome
  write : WriteOutcome
  deriving DecidableEq, Repr

/-- `write(path, bytes)` (R139, R140): full replacement; a failure after truncation leaves the file empty. -/
def FileStore.write (fs : FileStore) (path : String) (bytes : List Byte) : WriteOutcome → FileStore × Except HostError Unit
  | .done => (fs.replace path bytes, .ok ())
  | .failedBeforeTruncation => (fs, .error .io)
  | .failedAfterTruncation => (fs.replace path [], .error .io)

/-- One trailing newline stripped, if present (R136). -/
def stripNewline (bytes : List Byte) : List Byte :=
  if bytes.getLast? = some newline then bytes.dropLast else bytes

/-- `read_key(path)` (R136): up to 64 bytes are read, then one trailing newline is stripped (log 24). -/
def FileStore.readKey (fs : FileStore) (path : String) (outcome : ReadOutcome) : Except HostError (List Byte) :=
  match fs.readRange path 0 64 outcome with
  | .error e => .error e
  | .ok bytes =>
    let password := stripNewline bytes
    if 4 ≤ password.length ∧ password.length ≤ 64 then .ok password else .error .keyLength

/-- How an invoking command ends (R138). -/
structure CommandEnd where
  store : FileStore
  result : Except HostStop (List Byte)

/-- The number of an error, with which its free exit status is drawn. -/
def HostStop.index : HostStop → Nat
  | .error .keyLength => 0
  | .error .format => 1
  | .error .truncated => 2
  | .error .integrity => 3
  | .error .alreadyEncrypted => 4
  | .error .emptyInput => 5
  | .error .capacityExceeded => 6
  | .error .io => 7
  | .engineFault => 8

/-- The exit status (R138): 0, or any value but 0 on a failure (U22, free, log 21). -/
def CommandEnd.status (e : CommandEnd) : Nat :=
  match e.result with
  | .ok _ => 0
  | .error stop => Config.freeExitStatus stop.index + 1

/-- The password and the old contents a command starts from: the key file first, then the file (R120, log 20). -/
def FileStore.readBoth (fs : FileStore) (keyPath path : String) (outcomes : FileOutcomes) :
    Except HostError (List Byte × List Byte) :=
  match fs.readKey keyPath outcomes.keyRead with
  | .error e => .error e
  | .ok password =>
    match fs.read path outcomes.fileRead with
    | .error e => .error e
    | .ok old => .ok (password, old)

/-- Read old, mutate in memory, truncate-write new (R139). A failure before the write leaves every file as it was. -/
def rewriteFile (fs : FileStore) (keyPath path : String)
    (operation : (password old : List Byte) → Except HostStop (List Byte)) (outcomes : FileOutcomes) : CommandEnd :=
  match fs.readBoth keyPath path outcomes with
  | .error e => ⟨fs, .error (.error e)⟩
  | .ok (password, old) =>
    match operation password old with
    | .error stop => ⟨fs, .error stop⟩
    | .ok new =>
      match fs.write path new outcomes.write with
      | (fs', .ok _) => ⟨fs', .ok new⟩
      | (fs', .error e) => ⟨fs', .error (.error e)⟩

/-- The command that encrypts a file in place (R131, R139). -/
def encryptFile (fs : FileStore) (keyPath path : String) (outcomes : FileOutcomes) : CommandEnd :=
  rewriteFile fs keyPath path (encrypt Config.seed0) outcomes

/-- The command that appends a text to a container file (R133, R139). -/
def appendFile (fs : FileStore) (keyPath path : String) (extra : List Byte) (outcomes : FileOutcomes) : CommandEnd :=
  rewriteFile fs keyPath path (fun password old => append Config.seed0 password old extra) outcomes

/-- The command that prepends a text to a container file (R134, R139). -/
def prependFile (fs : FileStore) (keyPath path : String) (extra : List Byte) (outcomes : FileOutcomes) : CommandEnd :=
  rewriteFile fs keyPath path (fun password old => prepend Config.seed0 password old extra) outcomes

/-- The command that displays a container file; it writes nothing (R127: the header is read-only during decrypt). -/
def displayFile (fs : FileStore) (keyPath path : String) (outcomes : FileOutcomes) : CommandEnd :=
  match fs.readBoth keyPath path outcomes with
  | .error e => ⟨fs, .error (.error e)⟩
  | .ok (password, old) => ⟨fs, decrypt Config.seed0 password old⟩

end Sys2Proof.Machine
end

