-- ==== Sys2Proof/Safety.lean ====
section
/-! DEFINITION. The terms claims are stated in: the ranges of the cells (R12, R86), the keywords and keystream of an
initialised engine (R107, R113), and the invariant every step keeps. -/

namespace Sys2Proof.Machine

/-- Bit 31 of a word is clear (R12). -/
def Bit31Clear (w : Word) : Prop := w.toNat < 2 ^ 31

/-- Every cell is in `[0, 2^31 - 1]` (R12). -/
def CellsInRange (cells : Cells) : Prop := ∀ i : Fin 16, Bit31Clear cells[i]

/-- No cell is zero (R86). -/
def CellsNonZero (cells : Cells) : Prop := ∀ i : Fin 16, cells[i] ≠ 0

/-- The keyword drawn after `k` others from registers `r`: with `r` as INIT leaves them it is `Z_(k+1)` (R107). -/
def keywordAt (c : Params) (r : CipherRegs) (k : Nat) : Word := keywordOf c (afterKeywords c k r)

/-- Byte `a` of the keystream CRYPT applies from registers `r` on: `KSBYTE(Z_(a/4+2), a mod 4)` (R113). -/
def keystreamByte (c : Params) (r : CipherRegs) (a : Nat) : Byte := ksByte c (keywordAt c r (a / 4 + 1)) (a % 4)

/-- `n` bytes of it (R113). -/
def keystream (c : Params) (r : CipherRegs) (n : Nat) : List Byte := (List.range n).map (keystreamByte c r)

/-- Two byte strings XORed position by position. -/
def xorBytes (xs ys : List Byte) : List Byte := List.zipWith (· ^^^ ·) xs ys

/-- `ceil(n / 4)`. -/
def ceilDiv4 (n : Nat) : Nat := (n + 3) / 4

/-- The value of the `LEN` field of a CRYPT frame (R48, R50), bytes 1 to 4, least significant first. -/
def lenField (frame : List Byte) : Nat :=
  (frame.getD 1 0).toNat + 2 ^ 8 * (frame.getD 2 0).toNat + 2 ^ 16 * (frame.getD 3 0).toNat +
    2 ^ 24 * (frame.getD 4 0).toNat

/-- A frame is illegal, in the words of R52. -/
def FrameIllegal (frame : List Byte) : Prop :=
  frame = [] ∨
  (∃ op operands, frame = op :: operands ∧ op ≠ 0x01 ∧ op ≠ 0x02 ∧ op ≠ 0x03) ∨
  (∃ operands, frame = 0x01 :: operands ∧ frame.length ≠ 33) ∨
  (∃ operands, frame = 0x02 :: operands ∧ frame.length ≠ 1) ∨
  (∃ operands, frame = 0x03 :: operands ∧ (frame.length < 5 ∨ frame.length ≠ 5 + lenField frame)) ∨
  (∃ operands, frame = 0x03 :: operands ∧ Config.params.maxLen < lenField frame)

/-- Where the cipher registers come from (R15, R101): in phase FRESH they are what INIT makes of `KEY` and `IV`, in
phase RUNNING that with at least one keyword drawn since; in phase RESET nothing is said of them. -/
def State.CipherFromKey (s : State) : Prop :=
  match s.phase with
  | .reset => True
  | .fresh => s.cipher = initialRegs Config.params s.key s.iv
  | .running => ∃ k, 0 < k ∧ s.cipher = afterKeywords Config.params k (initialRegs Config.params s.key s.iv)

/-- Once initialised, every cell is in `[1, 0x7FFFFFFF]` (R12, R86). -/
def State.CellsSound (s : State) : Prop :=
  s.phase ≠ .reset → CellsInRange s.cipher.lfsr ∧ CellsNonZero s.cipher.lfsr

/-- A latched NOT_INITIALISED was raised in phase RESET and a latched NOT_FRESH in phase RUNNING, and nothing but RESET
has run since (R154, R155, R159). -/
def State.LatchAgrees (s : State) : Prop :=
  (s.fault = some .notInitialised → s.phase = .reset) ∧ (s.fault = some .notFresh → s.phase = .running)

/-- The invariant of the machine. -/
structure State.Inv (s : State) : Prop where
  cipherFromKey : s.CipherFromKey
  cellsSound : s.CellsSound
  latchAgrees : s.LatchAgrees

end Sys2Proof.Machine
end

