-- ==== Sys2Proof/Certificates/Slice0/Obligations.lean ====
section
/-! DEFINITION. The statements for the provers. -/

open Sys2Proof Sys2Proof.Machine

/-! ### Frames (R45 to R54) -/

/-- Decoding the frame of a well-formed command gives the command back, with every operand at every value
(R46, R47, R48, R50). -/
def Obligations.DecodeInvertsEncode : Prop :=
  ∀ i : Instr, i.wellFormed = true → decode (encode i) = .ok i

/-- A frame has at most one meaning: the command it decodes to is well formed and has this frame and no other
(R51, R52). -/
def Obligations.EncodeInvertsDecode : Prop :=
  ∀ (frame : List Byte) (i : Instr), decode frame = .ok i → i.wellFormed = true ∧ encode i = frame

/-- R52: a frame that meets any of the listed conditions raises ILLEGAL_COMMAND and changes no state other than
`fault`; every other frame carries a command; the last condition of the list cannot occur (`MAX_LEN` is `2^32 - 1`). -/
def Obligations.IllegalFramesRaiseIllegalCommand : Prop :=
  (∀ (frame : List Byte) (rest : List HostEvent) (s : State), s.inbox = .command frame :: rest → s.fault = none →
    FrameIllegal frame →
    step s = .next { s with
      inbox := rest, fault := some .illegalCommand, responses := s.responses ++ [.fault .illegalCommand] }) ∧
  (∀ frame : List Byte, ¬ FrameIllegal frame → ∃ i, decode frame = .ok i) ∧
  (∀ frame : List Byte, lenField frame ≤ Config.params.maxLen)

/-- R50: which frame bytes the operands of a decoded command are. -/
def Obligations.OperandsAreTheFramesBytes : Prop :=
  (∀ (frame : List Byte) (key iv : Block), decode frame = .ok (.init key iv) →
    ∀ i : Fin 16, frame[1 + i.val]? = some key[i] ∧ frame[17 + i.val]? = some iv[i]) ∧
  (∀ (frame data : List Byte), decode frame = .ok (.crypt data) →
    data.length = lenField frame ∧ ∀ a, a < data.length → frame[5 + a]? = data[a]?)

/-- Frames written out byte by byte from R46 to R48 decode to the commands they stand for. -/
def Obligations.SampleFramesDecode : Prop :=
  decode [0x02] = .ok .genkw ∧
  decode [0x03, 0x00, 0x00, 0x00, 0x00] = .ok (.crypt []) ∧
  decode [0x03, 0x06, 0x00, 0x00, 0x00, 0x68, 0x65, 0x6C, 0x6C, 0x6F, 0x0A] =
    .ok (.crypt [0x68, 0x65, 0x6C, 0x6C, 0x6F, 0x0A]) ∧
  decode [0x01, 0x00, 0x01, 0x02, 0x03, 0x04, 0x05, 0x06, 0x07, 0x08, 0x09, 0x0A, 0x0B, 0x0C, 0x0D, 0x0E, 0x0F,
      0x10, 0x11, 0x12, 0x13, 0x14, 0x15, 0x16, 0x17, 0x18, 0x19, 0x1A, 0x1B, 0x1C, 0x1D, 0x1E, 0x1F] =
    .ok (.init #v[0x00, 0x01, 0x02, 0x03, 0x04, 0x05, 0x06, 0x07, 0x08, 0x09, 0x0A, 0x0B, 0x0C, 0x0D, 0x0E, 0x0F]
      #v[0x10, 0x11, 0x12, 0x13, 0x14, 0x15, 0x16, 0x17, 0x18, 0x19, 0x1A, 0x1B, 0x1C, 0x1D, 0x1E, 0x1F])

/-- On a transport that does not delimit frames, the frame of a well-formed command is cut off exactly, whatever
follows it (R54). -/
def Obligations.FramesAreCutExactly : Prop :=
  ∀ (i : Instr) (rest : List Byte), i.wellFormed = true → cutFrame (encode i ++ rest) = some (encode i, rest)

/-- The bytes of the response frames (R49). -/
def Obligations.ResponseFrameBytes : Prop :=
  (Response.ok .empty).frame = [0x00] ∧
  (∀ z : Word, (Response.ok (.keyword z)).frame =
    [0x00, z.extractLsb' 0 8, z.extractLsb' 8 8, z.extractLsb' 16 8, z.extractLsb' 24 8]) ∧
  (∀ data : List Byte, (Response.ok (.data data)).frame = 0x00 :: data) ∧
  (Response.fault .illegalCommand).frame = [0x01] ∧
  (Response.fault .notInitialised).frame = [0x02] ∧
  (Response.fault .notFresh).frame = [0x03]

/-! ### Steps (R100, R170, R182) -/

/-- When the next event is a frame that decodes to `i`, the step is `exec i` on the state with that event taken. -/
def Obligations.StepRunsTheDecodedCommand : Prop :=
  ∀ (s : State) (frame : List Byte) (rest : List HostEvent) (i : Instr),
    s.inbox = .command frame :: rest → decode frame = .ok i → step s = exec i { s with inbox := rest }

/-- A RESET event (R170) leaves phase RESET and no fault latched, whatever the state, and answers nothing; with no
event waiting the engine waits (R182; the waiting step is the model's choice, log 3). -/
def Obligations.ResetEventAndWaiting : Prop :=
  (∀ (s : State) (rest : List HostEvent), s.inbox = .reset :: rest →
    ∃ t, step s = .next t ∧ t.phase = .reset ∧ t.fault = none ∧ t.responses = s.responses ∧ t.inbox = rest) ∧
  (∀ s : State, s.inbox = [] → step s = .next s)

/-- What reset leaves where the spec gives a value (R23, R171). -/
def Obligations.ResetStateControlFields : Prop :=
  State.reset.phase = .reset ∧ State.reset.fault = none ∧ State.reset.phase.code = 0 ∧
    latchCode State.reset.fault = 0

/-- No step stops: every state has a next state, so no access leaves the data buffer and no command is refused
(R111, R182). R182 speaks of frames. That an engine fault is a next state is the model's reading (log 10), and the next
state where no event waits is the model's own waiting step (log 3). -/
def Obligations.EveryStepHasANextState : Prop := ∀ s : State, ∃ t, step s = .next t

/-- R45: exactly one response follows each command; a RESET event and waiting have none. -/
def Obligations.OneResponseForEachCommand : Prop :=
  ∀ s t : State, step s = .next t →
    (∀ (frame : List Byte) (rest : List HostEvent), s.inbox = .command frame :: rest →
      ∃ r, t.responses = s.responses ++ [r] ∧ t.inbox = rest) ∧
    (∀ rest : List HostEvent, s.inbox = .reset :: rest → t.responses = s.responses ∧ t.inbox = rest) ∧
    (s.inbox = [] → t.responses = s.responses ∧ t.inbox = [])

/-! ### Faults (R151 to R159) -/

/-- R159: while a fault is latched every command, INIT included, is answered with it and changes nothing; a RESET event
clears the latch and leaves phase RESET; over every other step the latch keeps the first code. -/
def Obligations.LatchedFaultAnswersEverything : Prop :=
  (∀ (s : State) (code : FaultCode) (frame : List Byte) (rest : List HostEvent),
    s.fault = some code → s.inbox = .command frame :: rest →
    step s = .next { s with inbox := rest, responses := s.responses ++ [.fault code] }) ∧
  (∀ (s : State) (code : FaultCode) (rest : List HostEvent), s.fault = some code → s.inbox = .reset :: rest →
    ∃ t, step s = .next t ∧ t.fault = none ∧ t.phase = .reset) ∧
  (∀ (s t : State) (code : FaultCode), s.fault = some code → (∀ rest, s.inbox ≠ .reset :: rest) → step s = .next t →
    t.fault = some code)

/-- R152: the step that latches a fault changes the latch and answers with the code, and changes nothing else. -/
def Obligations.FaultsArePrecise : Prop :=
  ∀ (s t : State) (code : FaultCode), s.fault = none → step s = .next t → t.fault = some code →
    t = { s with inbox := s.inbox.tail, fault := some code, responses := s.responses ++ [.fault code] }

/-- R154: GENKW and CRYPT in phase RESET raise NOT_INITIALISED; INIT never does. -/
def Obligations.NotInitialisedInPhaseReset : Prop :=
  (∀ s : State, s.fault = none → s.phase = .reset →
    exec .genkw s = .next { s with
      fault := some .notInitialised, responses := s.responses ++ [.fault .notInitialised] } ∧
    ∀ data, exec (.crypt data) s = .next { s with
      fault := some .notInitialised, responses := s.responses ++ [.fault .notInitialised] }) ∧
  (∀ (s t : State) (key iv : Block), s.fault = none → exec (.init key iv) s = .next t → t.fault = none)

/-- R155: CRYPT in phase RUNNING raises NOT_FRESH; GENKW never does. -/
def Obligations.NotFreshInPhaseRunning : Prop :=
  (∀ (s : State) (data : List Byte), s.fault = none → s.phase = .running →
    exec (.crypt data) s = .next { s with
      fault := some .notFresh, responses := s.responses ++ [.fault .notFresh] }) ∧
  (∀ s t : State, s.fault = none → exec .genkw s = .next t → t.fault ≠ some .notFresh)

/-- The priority of R157: which code a FAULT response to a command frame carries. -/
def Obligations.FaultPriority : Prop :=
  ∀ (s t : State) (frame : List Byte) (rest : List HostEvent) (code : FaultCode),
    s.inbox = .command frame :: rest → step s = .next t → t.responses = s.responses ++ [.fault code] →
    s.fault = some code ∨
    (s.fault = none ∧
      (FrameIllegal frame ∧ code = .illegalCommand ∨
       ¬ FrameIllegal frame ∧ s.phase = .reset ∧ code = .notInitialised ∨
       ¬ FrameIllegal frame ∧ s.phase = .running ∧ code = .notFresh))

/-- R112: the table of phase transitions, row by row. A FAULT entry also latches the code and leaves `phase` and every
register unchanged. -/
def Obligations.PhaseTransitionTable : Prop :=
  let faults (s : State) (out : Host.Outcome State Fault Refusal) (code : FaultCode) : Prop :=
    out = .next { s with fault := some code, responses := s.responses ++ [.fault code] }
  (∀ s : State, s.fault = none → ∀ key iv, ∃ t, exec (.init key iv) s = .next t ∧ t.phase = .fresh ∧ t.fault = none ∧
    t.responses = s.responses ++ [.ok .empty]) ∧
  (∀ s : State, s.fault = none → s.phase = .reset → faults s (exec .genkw s) .notInitialised ∧
    ∀ data, faults s (exec (.crypt data) s) .notInitialised) ∧
  (∀ s : State, s.fault = none → s.phase ≠ .reset → ∃ t z, exec .genkw s = .next t ∧ t.phase = .running ∧
    t.fault = none ∧ t.responses = s.responses ++ [.ok (.keyword z)]) ∧
  (∀ s : State, s.fault = none → s.phase = .fresh → ∀ data, ∃ t out, exec (.crypt data) s = .next t ∧
    t.phase = .running ∧ t.fault = none ∧ t.responses = s.responses ++ [.ok (.data out)] ∧ out.length = data.length) ∧
  (∀ s : State, s.fault = none → s.phase = .running → ∀ data, faults s (exec (.crypt data) s) .notFresh) ∧
  (∀ s : State, s.fault = none → ∀ frame, FrameIllegal frame → faults s (deliverFrame frame s) .illegalCommand) ∧
  (∀ (s : State) (code : FaultCode), s.fault = some code → ∀ frame, faults s (deliverFrame frame s) code) ∧
  (∀ s : State, ∃ t, deliver .reset s = .next t ∧ t.phase = .reset ∧ t.fault = none)

/-! ### INIT (R80, R101, R102) -/

/-- The result of INIT (R101): in every phase with no fault latched it loads the operands, zeroes `R1` and `R2`, runs
32 initialisation rounds and one discarded work round, and leaves phase FRESH; nothing else changes. -/
def Obligations.InitResult : Prop :=
  ∀ (s : State) (key iv : Block), s.fault = none →
    exec (.init key iv) s = .next { s with
      key := key
      iv := iv
      cipher := workRoundDiscard Config.params
        (repeatRound (initRound Config.params) 32 ⟨lfsrLoad Config.params key iv, 0, 0⟩)
      phase := .fresh
      responses := s.responses ++ [.ok .empty] }

/-- R102: an INIT on a used engine leaves exactly the state that RESET followed by the same INIT leaves (the model's
own counter of resets apart, log 2). -/
def Obligations.ReinitialisationEqualsReset : Prop :=
  ∀ (s : State) (key iv : Block), s.fault = none → ∃ t u,
    exec (.init key iv) s = .next t ∧ exec (.init key iv) (resetEvent s) = .next u ∧
    u = { t with resets := s.resets + 1 }

/-- The load (R80), field by field: bit 31 is 0, bits 30:23 are `KEY[i]`, bits 22:8 `ROM_D[i]`, bits 7:0 `IV[i]`. -/
def Obligations.LoadedCellLayout : Prop :=
  ∀ (key iv : Block) (i : Fin 16),
    (lfsrLoad Config.params key iv)[i].extractLsb' 31 1 = 0 ∧
    (lfsrLoad Config.params key iv)[i].extractLsb' 23 8 = key[i] ∧
    (lfsrLoad Config.params key iv)[i].extractLsb' 8 15 = Config.params.dTable i ∧
    (lfsrLoad Config.params key iv)[i].extractLsb' 0 8 = iv[i]

/-! ### GENKW (R95, R103) -/

/-- The result of GENKW (R103, R95): in phase FRESH or RUNNING with no fault latched it answers
`Z = F(X0, X1, X2) ^ X3`, leaves F's `R1`, `R2` and the cells advanced in work mode, and phase RUNNING; nothing else
changes. In phase RESET it raises NOT_INITIALISED. -/
def Obligations.GenkwResult : Prop :=
  (∀ s : State, s.fault = none → s.phase = .fresh ∨ s.phase = .running →
    let x := bitReorg Config.params s.cipher.lfsr
    let f := nonlinearF Config.params s.cipher.r1 s.cipher.r2 x.x0 x.x1 x.x2
    exec .genkw s = .next { s with
      cipher := ⟨shiftIn s.cipher.lfsr (feedbackSum Config.params s.cipher.lfsr), f.r1, f.r2⟩
      phase := .running
      responses := s.responses ++ [.ok (.keyword (f.w ^^^ x.x3))] }) ∧
  (∀ s : State, s.fault = none → s.phase = .reset → exec .genkw s = .next { s with
    fault := some .notInitialised, responses := s.responses ++ [.fault .notInitialised] })

/-- R116: two engines initialised with the same key and IV give the same keywords, for any number of them: whatever
the states they start from, `NEW key, iv` and `k` GENKW answer one and the same list of words. -/
def Obligations.KeystreamIsDeterministic : Prop :=
  ∀ (key iv : Block) (k : Nat), ∃ words : List Word, words.length = k ∧
    ∀ s : State, s.inbox = [] → ∃ t, runEvents ((Pseudo.new key iv).events ++ (Pseudo.keystream k).events) s = .next t ∧
      t.responses = s.responses ++ .ok .empty :: words.map fun z => .ok (.keyword z)

/-! ### CRYPT (R105 to R109, R113, R117, R118) -/

/-- The result of CRYPT (R105, R107, R108, R109): in phase FRESH with no fault latched it draws `1 + ceil(n / 4)`
keywords and answers as many bytes as it was given, byte `a` XORed with `KSBYTE(Z_(a/4+2), a mod 4)`; phase RUNNING;
nothing else changes. -/
def Obligations.CryptResult : Prop :=
  ∀ (s : State) (data : List Byte), s.fault = none → s.phase = .fresh →
    ∃ out, exec (.crypt data) s = .next { s with
        cipher := afterKeywords Config.params (1 + (data.length + 3) / 4) s.cipher
        phase := .running
        responses := s.responses ++ [.ok (.data out)] } ∧
      out.length = data.length ∧
      ∀ (a : Nat) (h : a < data.length), out[a]? =
        some (data[a] ^^^ ksByte Config.params
          (keywordOf Config.params (afterKeywords Config.params (a / 4 + 1) s.cipher)) (a % 4))

/-- R113, for every value of the open parameters (R7) within the shapes of the record (log 6): there is a keystream of the
key and IV alone, whose bytes are the rule's and whose shorter forms are beginnings of its longer ones, and the meanings
of INIT and CRYPT with no fault latched (`runInit`, `runCrypt`), one after the other, answer the data XORed with it,
whatever the registers and phase they start from. -/
def Obligations.CryptXorsTheKeystream : Prop :=
  ∀ (c : Params) (key iv : Block), ∃ ks : Nat → List Byte,
    (∀ n, (ks n).length = n) ∧
    (∀ n a, a < n → (ks n)[a]? = some (ksByte c (keywordAt c (initialRegs c key iv) (a / 4 + 1)) (a % 4))) ∧
    (∀ m n, m ≤ n → ks m = (ks n).take m) ∧
    ∀ (s : State) (data : List Byte), ∃ t u, runInit c key iv s = .next t ∧ runCrypt c data t = .next u ∧
      u.responses = s.responses ++ [.ok .empty, .ok (.data (xorBytes data (ks data.length)))]

/-- R117: `NEW key, iv; CRYPT data` answers `ct`, and `NEW key, iv; CRYPT ct` answers `data`, on any two engines,
whatever their states; and the same of the meanings of INIT and CRYPT with no fault latched (`runInit`, `runCrypt`) for
every value of the open parameters within the shapes of the record (log 6). -/
def Obligations.EngineRoundTrip : Prop :=
  (∀ (key iv : Block) (data : List Byte), data.length ≤ Config.params.maxLen →
    ∃ ct : List Byte, ct.length = data.length ∧
      (∀ s : State, s.inbox = [] → ∃ t, runEvents (Pseudo.encrypt key iv data).events s = .next t ∧
        t.responses = s.responses ++ [.ok .empty, .ok (.data ct)]) ∧
      (∀ s : State, s.inbox = [] → ∃ t, runEvents (Pseudo.decrypt key iv ct).events s = .next t ∧
        t.responses = s.responses ++ [.ok .empty, .ok (.data data)])) ∧
  (∀ (c : Params) (key iv : Block) (data : List Byte), ∃ ct : List Byte, ct.length = data.length ∧
    ∀ s s' : State, ∃ t u t' u',
      runInit c key iv s = .next t ∧ runCrypt c data t = .next u ∧
      u.responses = s.responses ++ [.ok .empty, .ok (.data ct)] ∧
      runInit c key iv s' = .next t' ∧ runCrypt c ct t' = .next u' ∧
      u'.responses = s'.responses ++ [.ok .empty, .ok (.data data)])

/-- R118: response byte 0 of CRYPT differs from `data[0]` if and only if `KSBYTE(Z_2, 0)` is not 0. -/
def Obligations.NonIdentityOfFirstByte : Prop :=
  ∀ (s : State) (b : Byte) (data : List Byte), s.fault = none → s.phase = .fresh →
    ∃ t b' out, exec (.crypt (b :: data)) s = .next t ∧ t.responses = s.responses ++ [.ok (.data (b' :: out))] ∧
      (b' ≠ b ↔ ksByte Config.params (keywordOf Config.params (afterKeyword Config.params s.cipher)) 0 ≠ 0)

/-- The shorter CRYPT's response is the beginning of the longer one's, from one and the same engine state (R113). -/
def Obligations.ShorterCryptIsABeginning : Prop :=
  ∀ (s : State) (data : List Byte) (m : Nat), s.fault = none → s.phase = .fresh →
    ∃ t u out, exec (.crypt data) s = .next t ∧ t.responses = s.responses ++ [.ok (.data out)] ∧
      exec (.crypt (data.take m)) s = .next u ∧ u.responses = s.responses ++ [.ok (.data (out.take m))]

/-- The state CRYPT leaves does not depend on the data bytes, only on their number (R105); and the two responses differ
by exactly what the data differ by, byte for byte (R176). -/
def Obligations.CryptStateIgnoresDataBytes : Prop :=
  ∀ (s : State) (data data' : List Byte), s.fault = none → s.phase = .fresh → data.length = data'.length →
    ∃ t t' out out', exec (.crypt data) s = .next t ∧ exec (.crypt data') s = .next t' ∧
      t.responses = s.responses ++ [.ok (.data out)] ∧ t'.responses = s.responses ++ [.ok (.data out')] ∧
      t' = { t with responses := t'.responses } ∧ xorBytes out out' = xorBytes data data'

/-- R107: CRYPT's keystream is the GENKW keystream with its first word removed: from one fresh engine, `k + 1` GENKW
answer words, and CRYPT of `4 k` zero bytes answers the bytes of those words from the second on (least significant byte
first, the value R35 takes for `KS_BYTE_ORDER`). -/
def Obligations.CryptKeystreamSkipsFirstWord : Prop :=
  ∀ (s : State) (k : Nat), s.fault = none → s.phase = .fresh → s.inbox = [] →
    ∃ t u first words, runEvents (Pseudo.keystream (k + 1)).events s = .next t ∧
      t.responses = s.responses ++ (first :: words).map (fun z => .ok (.keyword z)) ∧
      exec (.crypt (List.replicate (4 * k) 0)) s = .next u ∧
      u.responses = s.responses ++ [.ok (.data (words.flatMap le32Bytes))]

/-! ### Whole-machine rules -/

/-- The invariant holds right after reset. -/
def Obligations.ResetMeetsInvariant : Prop := State.reset.Inv

/-- Every step keeps the invariant: the cipher registers are always what INIT made of `KEY` and `IV`, advanced by the
keywords drawn since; once initialised every cell is in `[1, 0x7FFFFFFF]`; a latched fault agrees with the phase
(R12, R15, R86, R159). -/
def Obligations.StepKeepsInvariant : Prop := ∀ s t : State, s.Inv → step s = .next t → t.Inv

/-- Who may change what (R22, R11, R14): only RESET and INIT change `KEY` or `IV`; only RESET, INIT, GENKW and CRYPT
change the cipher registers or the phase; and while a fault is latched only RESET changes any of them. -/
def Obligations.OnlyTheseEventsChangeRegisters : Prop :=
  ∀ s t : State, step s = .next t →
    (t.key ≠ s.key ∨ t.iv ≠ s.iv →
      (∃ rest, s.inbox = .reset :: rest) ∨
      ∃ frame rest key iv, s.inbox = .command frame :: rest ∧ decode frame = .ok (.init key iv) ∧ s.fault = none ∧
        t.key = key ∧ t.iv = iv) ∧
    (t.cipher ≠ s.cipher ∨ t.phase ≠ s.phase →
      (∃ rest, s.inbox = .reset :: rest) ∨
      ∃ frame rest i, s.inbox = .command frame :: rest ∧ decode frame = .ok i ∧ s.fault = none ∧ t.fault = none)

/-- R172: RESET is the only way to clear a latched fault, and the only thing besides INIT that leaves phase RUNNING;
it may be applied in any phase and with any fault. -/
def Obligations.OnlyResetAndInitLeaveRunning : Prop :=
  (∀ s t : State, step s = .next t → s.fault ≠ none → t.fault = none → ∃ rest, s.inbox = .reset :: rest) ∧
  (∀ s t : State, step s = .next t → s.phase = .running → t.phase ≠ .running →
    (∃ rest, s.inbox = .reset :: rest ∧ t.phase = .reset) ∨
    ∃ frame rest key iv, s.inbox = .command frame :: rest ∧ decode frame = .ok (.init key iv) ∧ t.phase = .fresh) ∧
  (∀ (s : State) (rest : List HostEvent), s.inbox = .reset :: rest →
    ∃ t, step s = .next t ∧ t.phase = .reset ∧ t.fault = none)

/-- The frame of the three commands: none touches the events that wait or the model's counter, each adds one response
and keeps the earlier ones, and GENKW and CRYPT leave `KEY` and `IV` as they are (R22). -/
def Obligations.CommandsFrame : Prop :=
  ∀ (i : Instr) (s t : State), exec i s = .next t →
    t.inbox = s.inbox ∧ t.resets = s.resets ∧ (∃ r, t.responses = s.responses ++ [r]) ∧
    (i = .genkw ∨ (∃ data, i = .crypt data) → t.key = s.key ∧ t.iv = s.iv) ∧
    (∀ code, t.fault = some code → t.cipher = s.cipher ∧ t.key = s.key ∧ t.iv = s.iv ∧ t.phase = s.phase)

/-- R14: GENKW and CRYPT depend on `LFSR`, `R1`, `R2` only: with any other key and IV in `KEY` and `IV` they do the same
and leave those two as they were. -/
def Obligations.KeyRegistersAreNotRead : Prop :=
  ∀ (i : Instr) (s t : State) (key iv : Block), i = .genkw ∨ (∃ data, i = .crypt data) → exec i s = .next t →
    exec i { s with key := key, iv := iv } = .next { t with key := key, iv := iv }

/-- R170, R23: in phase RESET nothing reads the unspecified registers: whatever they hold, a frame has the same response
and leaves the same phase and latch, and if it leaves phase RESET it leaves the same state. -/
def Obligations.UnspecifiedRegistersAreNotRead : Prop :=
  ∀ (s t : State) (frame : List Byte) (r : CipherRegs) (key iv : Block), s.phase = .reset →
    deliverFrame frame s = .next t →
    ∃ u, deliverFrame frame { s with cipher := r, key := key, iv := iv } = .next u ∧
      u.responses = t.responses ∧ u.phase = t.phase ∧ u.fault = t.fault ∧ (t.phase ≠ .reset → u = t)

/-! ### Arithmetic (R61 to R66, R74) -/

/-- R61: `ADDM` is the sum, less `2^31 - 1` where it exceeds it; it stays in range, gives 0 only from two zeros, leaves
0 neutral and `0x7FFFFFFF` neutral on non-zero operands, and is commutative and associative. -/
def Obligations.AddmIsEndAroundCarryAddition : Prop :=
  (∀ a b : Word, Bit31Clear a → Bit31Clear b →
    (addm a b).toNat =
      (if a.toNat + b.toNat ≤ 0x7FFFFFFF then a.toNat + b.toNat else a.toNat + b.toNat - 0x7FFFFFFF) ∧
    Bit31Clear (addm a b) ∧ (addm a b = 0 ↔ a = 0 ∧ b = 0) ∧
    addm a 0 = a ∧ (b ≠ 0 → addm 0x7FFFFFFF b = b) ∧ addm a b = addm b a) ∧
  (∀ a b c : Word, Bit31Clear a → Bit31Clear b → Bit31Clear c → addm (addm a b) c = addm a (addm b c))

/-- R62: `MULPOW2(x, k)` is the product with `2^k` modulo `2^31 - 1`, moves bit `i` to bit `(i + k) mod 31`, and keeps
each of the two representations of zero. -/
def Obligations.MulPow2IsModularMultiplication : Prop :=
  ∀ (x : Word) (k : Nat), Bit31Clear x → 0 < k → k < 31 →
    (mulPow2 x k).toNat % (2 ^ 31 - 1) = x.toNat * 2 ^ k % (2 ^ 31 - 1) ∧
    (∀ i, i < 31 → (mulPow2 x k).getLsbD ((i + k) % 31) = x.getLsbD i) ∧
    mulPow2 0 k = 0 ∧ mulPow2 0x7FFFFFFF k = 0x7FFFFFFF ∧ (x ≠ 0 → mulPow2 x k ≠ 0) ∧ Bit31Clear (mulPow2 x k)

/-- R63: `rotl32` moves bit `i` to bit `(i + k) mod 32`. -/
def Obligations.Rotl32MovesBits : Prop :=
  ∀ (v : Word) (k i : Nat), 0 < k → k < 32 → i < 32 → (rotl32 v k).getLsbD ((i + k) % 32) = v.getLsbD i

/-- R64, R65: the two diffusion transforms are the XOR of the word with its four rotations, they are linear over XOR,
and they keep 0 and the word of ones. -/
def Obligations.DiffusionTransforms : Prop :=
  (∀ x : Word, l1 x = x ^^^ rotl32 x 2 ^^^ rotl32 x 10 ^^^ rotl32 x 18 ^^^ rotl32 x 24) ∧
  (∀ x : Word, l2 x = x ^^^ rotl32 x 8 ^^^ rotl32 x 14 ^^^ rotl32 x 22 ^^^ rotl32 x 30) ∧
  (∀ a b : Word, l1 (a ^^^ b) = l1 a ^^^ l1 b ∧ l2 (a ^^^ b) = l2 a ^^^ l2 b) ∧
  l1 0 = 0 ∧ l1 0xFFFFFFFF = 0xFFFFFFFF ∧ l2 0 = 0 ∧ l2 0xFFFFFFFF = 0xFFFFFFFF

/-- R66: the S-box layer in the shift form of the rule, each lane's output in its own lane. -/
def Obligations.SboxLanes : Prop :=
  ∀ x : Word, sbox Config.params x =
    ((Config.params.s0Table ((x >>> 24).setWidth 8)).setWidth 32 <<< 24) |||
    ((Config.params.s1Table (((x >>> 16) &&& 0xFF).setWidth 8)).setWidth 32 <<< 16) |||
    ((Config.params.s0Table (((x >>> 8) &&& 0xFF).setWidth 8)).setWidth 32 <<< 8) |||
    (Config.params.s1Table ((x &&& 0xFF).setWidth 8)).setWidth 32

/-- R74: the two boxes are permutations without a fixed point; the sixteen constants are non-zero and pairwise
different. -/
def Obligations.TableProperties : Prop :=
  Function.Bijective Config.params.s0Table ∧ Function.Bijective Config.params.s1Table ∧
  (∀ a : Byte, Config.params.s0Table a ≠ a ∧ Config.params.s1Table a ≠ a) ∧
  (∀ i : Fin 16, Config.params.dTable i ≠ 0 ∧ (Config.params.dTable i).toNat < 2 ^ 15) ∧
  (∀ i j : Fin 16, Config.params.dTable i = Config.params.dTable j → i = j)

/-- R106: the byte of a keyword that meets byte `j` of a chunk, for either byte order. -/
def Obligations.KeystreamByteOfKeyword : Prop :=
  ∀ (c : Params) (z : Word) (j : Nat), j < 4 →
    (c.ksByteOrder = .le → ksByte c z j = ((z >>> (8 * j)) &&& 0xFF).setWidth 8) ∧
    (c.ksByteOrder = .be → ksByte c z j = ((z >>> (24 - 8 * j)) &&& 0xFF).setWidth 8) ∧
    Config.params.ksByteOrder = .le

/-! ### The shift register and the nonlinear function (R80 to R93) -/

/-- R82: the feedback sum is the six terms accumulated with `ADDM`, is congruent to the sum of the rule modulo
`2^31 - 1`, stays in range, and is 0 only when all five cells are 0. -/
def Obligations.FeedbackSumOfTheRule : Prop :=
  ∀ l : Cells, CellsInRange l →
    feedbackSum Config.params l =
      addm (addm (addm (addm (addm l[0] (mulPow2 l[0] 8)) (mulPow2 l[4] 20)) (mulPow2 l[10] 21)) (mulPow2 l[13] 17))
        (mulPow2 l[15] 15) ∧
    (feedbackSum Config.params l).toNat % (2 ^ 31 - 1) =
      (2 ^ 15 * l[15].toNat + 2 ^ 17 * l[13].toNat + 2 ^ 21 * l[10].toNat + 2 ^ 20 * l[4].toNat +
        (1 + 2 ^ 8) * l[0].toNat) % (2 ^ 31 - 1) ∧
    Bit31Clear (feedbackSum Config.params l) ∧
    (feedbackSum Config.params l = 0 ↔ l[0] = 0 ∧ l[4] = 0 ∧ l[10] = 0 ∧ l[13] = 0 ∧ l[15] = 0)

/-- R81, R83, R84: an advance moves fifteen cells down by one and writes cell 15 from the cells before the shift; with
`u = 0` the advance in init mode is the one in work mode. -/
def Obligations.AdvancesShiftTowardsCellZero : Prop :=
  ∀ (c : Params) (l : Cells) (u : Word),
    (∀ (i : Nat) (h : i < 15), (advanceInit c l u)[i] = l[i + 1] ∧ (advanceWork c l)[i] = l[i + 1]) ∧
    (advanceInit c l u)[15] = addm (feedbackSum c l) u ∧ (advanceWork c l)[15] = feedbackSum c l ∧
    (CellsInRange l → advanceInit c l 0 = advanceWork c l)

/-- R85: the load leaves bit 31 of every cell clear whatever the operands, and both advances keep it so, for every
value of the open parameters. -/
def Obligations.CellRangeLaw : Prop :=
  ∀ c : Params,
    (∀ key iv, CellsInRange (lfsrLoad c key iv)) ∧
    (∀ l, CellsInRange l → CellsInRange (advanceWork c l)) ∧
    (∀ l w, CellsInRange l → CellsInRange (advanceInit c l (shr1 w)))

/-- R86: where every `D_TABLE` entry is non-zero (and the feedback has at least one term, log 6), no cell is zero after
the load, an advance keeps it so, and every cell stays in `[1, 0x7FFFFFFF]` after INIT and any number of keywords. -/
def Obligations.CellNonZeroLaw : Prop :=
  ∀ c : Params, (∀ i, c.dTable i ≠ 0) → c.feedback ≠ [] →
    (∀ key iv, CellsNonZero (lfsrLoad c key iv)) ∧
    (∀ l, CellsInRange l → CellsNonZero l → CellsNonZero (advanceWork c l)) ∧
    (∀ l w, CellsInRange l → CellsNonZero l → CellsNonZero (advanceInit c l (shr1 w))) ∧
    ∀ (key iv : Block) (k : Nat),
      CellsInRange (afterKeywords c k (initialRegs c key iv)).lfsr ∧
      CellsNonZero (afterKeywords c k (initialRegs c key iv)).lfsr

/-- R90: the four words of the bit reorganisation in the mask-and-shift form of the rule. -/
def Obligations.BitReorganisationWiring : Prop :=
  ∀ l : Cells, CellsInRange l →
    bitReorg Config.params l =
      { x0 := ((l[15] &&& 0x7FFF8000) <<< 1) ||| (l[14] &&& 0xFFFF)
        x1 := ((l[11] &&& 0xFFFF) <<< 16) ||| (l[9] >>> 15)
        x2 := ((l[7] &&& 0xFFFF) <<< 16) ||| (l[5] >>> 15)
        x3 := ((l[2] &&& 0xFFFF) <<< 16) ||| (l[0] >>> 15) }

/-- R91 to R93: F in the shift form of the rule, all three words from the old `R1`, `R2`. -/
def Obligations.NonlinearFunctionOfTheRule : Prop :=
  ∀ r1 r2 x0 x1 x2 : Word,
    nonlinearF Config.params r1 r2 x0 x1 x2 =
      { w := (x0 ^^^ r1) + r2
        r1 := sbox Config.params (l1 (((r1 + x1) <<< 16) ||| ((r2 ^^^ x2) >>> 16)))
        r2 := sbox Config.params (l2 (((r2 ^^^ x2) <<< 16) ||| ((r1 + x1) >>> 16))) }

/-- R95 to R97: the three rounds, each from the bit reorganisation of the cells before it. The discarded work round
leaves the registers as a keyword does. -/
def Obligations.RoundsOfTheRules : Prop :=
  ∀ (c : Params) (r : CipherRegs),
    let x := bitReorg c r.lfsr
    let f := nonlinearF c r.r1 r.r2 x.x0 x.x1 x.x2
    keywordOf c r = f.w ^^^ x.x3 ∧
    afterKeyword c r = ⟨advanceWork c r.lfsr, f.r1, f.r2⟩ ∧
    initRound c r = ⟨advanceInit c r.lfsr (f.w >>> 1), f.r1, f.r2⟩ ∧
    workRoundDiscard c r = ⟨advanceWork c r.lfsr, f.r1, f.r2⟩ ∧
    workRoundDiscard c r = afterKeyword c r

/-! ### Worked vectors (95_test_vectors.md; they are vectors of `ZUC128-STD`, log 5) -/

/-- The registers after INIT with the all-zero key and IV, and the first keyword (R101, R103). -/
def Obligations.VectorV0 : Prop :=
  let zeros : Block := Vector.replicate 16 0
  let r := initialRegs Config.params zeros zeros
  r = ⟨#v[0x747CA0C4, 0x6259DD0B, 0x47A94C2B, 0x3A89C82E, 0x32B433FC, 0x231EA13F, 0x31711E42, 0x4CCCE955,
        0x3FB6071E, 0x161D3512, 0x7114B136, 0x5154D452, 0x78C69A74, 0x4F26BA6B, 0x3E1B8D6A, 0x7F08E141],
      0x3512BF50, 0xA0920453⟩ ∧
  keywordAt Config.params r 0 = 0x27BEDE74 ∧ keywordAt Config.params r 1 = 0x018082DA

/-! ### The host software (49_host_software.md) -/

/-- In correct host use no engine fault occurs: RESET, INIT, CRYPT from reset answer the data XORed with a keystream of
the key and IV alone (R142, R167). -/
def Obligations.HostNeverSeesAnEngineFault : Prop :=
  ∀ (key iv : Block) (data : List Byte), data.length ≤ Config.params.maxLen →
    freshCrypt key iv data = .ok (xorBytes data (keystream Config.params (initialRegs Config.params key iv) data.length))

/-- R126: every byte of the buffer a password of 4 to 64 bytes expands to. The generator is stepped once a byte, in order
(R125), from the seed of R124. -/
def Obligations.ExpandedKeyBytes : Prop :=
  ∀ (seed0 : Word) (password : List Byte), 4 ≤ password.length → password.length ≤ 64 →
    ∃ ek, expand seed0 password = .ok ek ∧ ∀ (i : Nat) (h : i < 256), ek[i] =
      ((lcgOutput (lcgUpdate^[i + 1] (seedOf seed0 password))).setWidth 8 ^^^ password.getD (i % password.length) 0) +
        (if i % 3 = 0 then 0 else if i % 3 = 1 then password.getD 0 0 else password.getD 0 0 + password.getD 1 0)

/-- The host-level round trip (R143): for every password of 4 to 64 bytes and every plaintext of 1 to 4084 bytes that
does not begin with the magic tag, `encrypt` succeeds and `decrypt` gives the plaintext back, whatever `SEED0` is. -/
def Obligations.ContainerRoundTrip : Prop :=
  ∀ (seed0 : Word) (password plaintext : List Byte), 4 ≤ password.length → password.length ≤ 64 →
    0 < plaintext.length → plaintext.length ≤ 4084 → isContainer plaintext = false →
    ∃ container, encrypt seed0 password plaintext = .ok container ∧ container.length = 12 + plaintext.length ∧
      isContainer container = true ∧ decrypt seed0 password container = .ok plaintext

/-- `append` and `prepend` (R133, R134): decrypting the result gives the old plaintext and the extra text with one
newline between them, where they fit (R135). -/
def Obligations.AppendAndPrepend : Prop :=
  ∀ (seed0 : Word) (password plaintext extra container : List Byte),
    encrypt seed0 password plaintext = .ok container → plaintext.length + 1 + extra.length ≤ 4084 →
    (∃ longer, append seed0 password container extra = .ok longer ∧
      decrypt seed0 password longer = .ok (plaintext ++ 0x0A :: extra)) ∧
    (∃ longer, prepend seed0 password container extra = .ok longer ∧
      decrypt seed0 password longer = .ok (extra ++ 0x0A :: plaintext))

/-- The host's refusals (R123, R131 to R133, R135, R137), IoError apart, which `FailedCommandsSpareFiles` and
`ReadFailures` are about. `expand` refuses a password outside 4 to 64 bytes. `encrypt` refuses a plaintext that is already
a container, an empty one, one over 4084 bytes, and a password that `expand` refuses. `decrypt` refuses a container of
fewer than 12 bytes, without the tag, or with a size outside 1 to 4084 (FormatError), one with too few bytes after the
header (TruncatedError), then such a password, then a plaintext of another checksum (IntegrityError), and nothing else.
`append` and `prepend` refuse what `decrypt` refuses and a combined plaintext over 4084 bytes. Each clause fixes which
refusal it is only on inputs with that one defect, or where the spec orders the checks; log 19 is used nowhere. -/
def Obligations.HostErrors : Prop :=
  (∀ (seed0 : Word) (password : List Byte), password.length < 4 ∨ 64 < password.length →
    expand seed0 password = .error .keyLength) ∧
  (∀ (seed0 : Word) (password plaintext : List Byte), isContainer plaintext = true →
    encrypt seed0 password plaintext = .error (.error .alreadyEncrypted)) ∧
  (∀ (seed0 : Word) (password : List Byte), encrypt seed0 password [] = .error (.error .emptyInput)) ∧
  (∀ (seed0 : Word) (password plaintext : List Byte), isContainer plaintext = false → 4084 < plaintext.length →
    4 ≤ password.length → password.length ≤ 64 →
    encrypt seed0 password plaintext = .error (.error .capacityExceeded)) ∧
  (∀ (seed0 : Word) (password plaintext : List Byte), isContainer plaintext = false → 0 < plaintext.length →
    plaintext.length ≤ 4084 → password.length < 4 ∨ 64 < password.length →
    encrypt seed0 password plaintext = .error (.error .keyLength)) ∧
  (∀ (seed0 : Word) (password container : List Byte), container.length < 12 ∨ isContainer container = false →
    decrypt seed0 password container = .error (.error .format)) ∧
  (∀ (seed0 : Word) (password body : List Byte) (h : ContainerHeader),
    h.originalSize.toInt < 1 ∨ 4084 < h.originalSize.toInt →
    decrypt seed0 password (h.bytes ++ body) = .error (.error .format)) ∧
  (∀ (seed0 : Word) (password body : List Byte) (h : ContainerHeader),
    1 ≤ h.originalSize.toInt → h.originalSize.toInt ≤ 4084 →
    (body.length < h.originalSize.toNat → decrypt seed0 password (h.bytes ++ body) = .error (.error .truncated)) ∧
    (h.originalSize.toNat ≤ body.length → password.length < 4 ∨ 64 < password.length →
      decrypt seed0 password (h.bytes ++ body) = .error (.error .keyLength)) ∧
    (h.originalSize.toNat ≤ body.length → ∀ ek, expand seed0 password = .ok ek →
      let n := h.originalSize.toNat
      let plaintext := xorBytes (body.take n)
        (keystream Config.params (initialRegs Config.params ek.cipherKey ek.cipherIv) n)
      (checksum plaintext ≠ h.checksum → decrypt seed0 password (h.bytes ++ body) = .error (.error .integrity)) ∧
      (checksum plaintext = h.checksum → decrypt seed0 password (h.bytes ++ body) = .ok plaintext))) ∧
  (∀ (seed0 : Word) (password container extra : List Byte),
    (∀ stop, decrypt seed0 password container = .error stop →
      append seed0 password container extra = .error stop ∧ prepend seed0 password container extra = .error stop) ∧
    (∀ old, decrypt seed0 password container = .ok old → 4084 < old.length + 1 + extra.length →
      append seed0 password container extra = .error (.error .capacityExceeded) ∧
      prepend seed0 password container extra = .error (.error .capacityExceeded)))

/-- R129: the checksum is always below `2^24`, and the source's worked example. -/
def Obligations.ChecksumRangeAndExample : Prop :=
  (∀ data : List Byte, (checksum data).toNat < 2 ^ 24) ∧ checksum [65, 66] = 64511

/-- The write policy (R139, R138) of every command that rewrites a file. If it fails, its status is not 0, every other
file is as it was, and its file is as it was, or empty where both reads and the operation succeeded and the write failed
after truncation, which is an IoError. If it succeeds, both reads succeeded, the operation gave the new contents, the
write was done, its file holds them and every other file is as it was. The outcomes are the environment's (log 20); that
the status of success is 0 is the model's choice (log 21). -/
def Obligations.FailedCommandsSpareFiles : Prop :=
  ∀ (fs : FileStore) (keyPath path : String) (extra : List Byte) (outcomes : FileOutcomes),
    let spares (operation : List Byte → List Byte → Except HostStop (List Byte)) (e : CommandEnd) : Prop :=
      (∀ stop, e.result = .error stop → e.status ≠ 0 ∧
        (∀ other, other ≠ path → e.store.contents other = fs.contents other) ∧
        (e.store.contents path = fs.contents path ∨
          outcomes.write = .failedAfterTruncation ∧ stop = .error .io ∧ e.store.contents path = some [] ∧
          ∃ password old new, fs.readBoth keyPath path outcomes = .ok (password, old) ∧
            operation password old = .ok new)) ∧
      (∀ new, e.result = .ok new → e.status = 0 ∧ outcomes = ⟨.done, .done, .done⟩ ∧
        (∀ other, other ≠ path → e.store.contents other = fs.contents other) ∧
        e.store.contents path = some new ∧
        ∃ password old, fs.readBoth keyPath path outcomes = .ok (password, old) ∧ operation password old = .ok new)
    (∀ operation, spares operation (rewriteFile fs keyPath path operation outcomes)) ∧
    spares (encrypt Config.seed0) (encryptFile fs keyPath path outcomes) ∧
    spares (fun password old => append Config.seed0 password old extra)
      (appendFile fs keyPath path extra outcomes) ∧
    spares (fun password old => prepend Config.seed0 password old extra)
      (prependFile fs keyPath path extra outcomes)

/-- R140, R139: a read of an existing file can fail, as one of a missing file does, and a command one of whose reads fails
or whose file is missing ends in an error and leaves every file as it was, whatever would have become of its write. -/
def Obligations.ReadFailures : Prop :=
  ∀ (fs : FileStore) (keyPath path : String) (outcomes : FileOutcomes),
    fs.read path .failed = .error .io ∧ (fs.contents path = none → fs.read path outcomes.fileRead = .error .io) ∧
    (outcomes.keyRead = .failed ∨ outcomes.fileRead = .failed ∨ fs.contents keyPath = none ∨ fs.contents path = none →
      (∀ operation, (rewriteFile fs keyPath path operation outcomes).store = fs ∧
        ∃ e, (rewriteFile fs keyPath path operation outcomes).result = .error (.error e)) ∧
      (displayFile fs keyPath path outcomes).store = fs ∧
      ∃ e, (displayFile fs keyPath path outcomes).result = .error (.error e))
end

