-- ==== Sys2Proof/Laws/Arith.lean ====
section
/-! SUPPORT. What the modular arithmetic computes (R61, R62), and the range and non-zero laws of the cells (R85, R86). -/

namespace Sys2Proof.Machine

@[simp] theorem modulus_toNat : Config.modulus.toNat = 2 ^ 31 - 1 := by decide

theorem and_modulus_toNat (x : Word) : (x &&& Config.modulus).toNat = x.toNat % 2 ^ 31 := by
  rw [BitVec.toNat_and, modulus_toNat, Nat.and_two_pow_sub_one_eq_mod]

theorem carryOut_toNat (x : Word) : (carryOut x).toNat = x.toNat / 2 ^ 31 := by
  simp [carryOut, Nat.shiftRight_eq_div_pow]

/-- `ADDM` in one equation over the natural numbers: the sum, with the carry out of 31 bits folded back (R61). -/
theorem addm_toNat {a b : Word} (ha : Bit31Clear a) (hb : Bit31Clear b) :
    (addm a b).toNat = (a.toNat + b.toNat) % 2 ^ 31 + (a.toNat + b.toNat) / 2 ^ 31 := by
  unfold Bit31Clear at ha hb
  rw [addm, BitVec.toNat_add, and_modulus_toNat, carryOut_toNat, BitVec.toNat_add]
  omega

theorem addm_inRange {a b : Word} (ha : Bit31Clear a) (hb : Bit31Clear b) : Bit31Clear (addm a b) := by
  have h := addm_toNat ha hb
  unfold Bit31Clear at *
  omega

theorem addm_ne_zero {a b : Word} (ha : Bit31Clear a) (hb : Bit31Clear b) (h : a ≠ 0) : addm a b ≠ 0 := by
  have hs := addm_toNat ha hb
  intro h0
  apply h
  apply BitVec.eq_of_toNat_eq
  rw [h0] at hs
  unfold Bit31Clear at *
  simp at hs ⊢
  omega

/-- `MULPOW2` as a sum of its two parts (R62). -/
theorem mulPow2_toNat {x : Word} {k : Nat} (hx : Bit31Clear x) (hk : k < 31) :
    (mulPow2 x k).toNat = x.toNat % 2 ^ (31 - k) * 2 ^ k + x.toNat / 2 ^ (31 - k) := by
  unfold Bit31Clear at hx
  have hpow : 2 ^ (31 - k) * 2 ^ k = 2 ^ 31 := by rw [← Nat.pow_add]; congr 1; omega
  have hq : x.toNat / 2 ^ (31 - k) < 2 ^ k := by
    rw [Nat.div_lt_iff_lt_mul (by positivity), Nat.mul_comm, hpow]; exact hx
  rw [mulPow2, and_modulus_toNat, BitVec.toNat_or, BitVec.toNat_shiftLeft, BitVec.toNat_ushiftRight,
    Nat.shiftRight_eq_div_pow, Nat.shiftLeft_eq, Nat.or_mod_two_pow]
  have h1 : x.toNat * 2 ^ k % 2 ^ 32 % 2 ^ 31 = x.toNat % 2 ^ (31 - k) * 2 ^ k := by
    rw [Nat.mod_mod_of_dvd _ (by decide), ← hpow, Nat.mul_mod_mul_right]
  have h2 : x.toNat / 2 ^ (31 - k) % 2 ^ 31 = x.toNat / 2 ^ (31 - k) :=
    Nat.mod_eq_of_lt (lt_of_lt_of_le hq (Nat.pow_le_pow_right (by decide) (by omega)))
  rw [h1, h2, Nat.mul_comm, ← Nat.two_pow_add_eq_or_of_lt hq]

theorem mulPow2_inRange (x : Word) (k : Nat) : Bit31Clear (mulPow2 x k) := by
  unfold Bit31Clear
  rw [mulPow2, and_modulus_toNat]
  omega

theorem mulPow2_ne_zero {x : Word} {k : Nat} (hx : Bit31Clear x) (hk : k < 31) (h : x ≠ 0) : mulPow2 x k ≠ 0 := by
  have hm := mulPow2_toNat hx hk
  intro h0
  apply h
  apply BitVec.eq_of_toNat_eq
  rw [h0] at hm
  change 0 = _ at hm
  have hpos : 0 < 2 ^ k := by positivity
  obtain ⟨hm', hd⟩ := Nat.add_eq_zero_iff.mp hm.symm
  have hr : x.toNat % 2 ^ (31 - k) = 0 := by
    rcases Nat.mul_eq_zero.mp hm' with h | h
    · exact h
    · omega
  have := Nat.div_add_mod x.toNat (2 ^ (31 - k))
  rw [hr, hd] at this
  change x.toNat = 0
  omega

/-! ### The shift register -/

@[simp] theorem shiftIn_last (cells : Cells) (w : Word) : (shiftIn cells w)[15] = w := by simp [shiftIn]

theorem shiftIn_lower (cells : Cells) (w : Word) {i : Nat} (h : i + 1 < 16) :
    (shiftIn cells w)[i] = cells[i + 1] := by simp [shiftIn, h]

theorem shiftIn_all {P : Word → Prop} {cells : Cells} {w : Word} (hc : ∀ i : Fin 16, P cells[i]) (hw : P w)
    (i : Fin 16) : P (shiftIn cells w)[i] := by
  by_cases h : i.val + 1 < 16
  · have := hc ⟨i.val + 1, h⟩
    simpa [shiftIn, h] using this
  · simpa [shiftIn, h] using hw

theorem feedbackTerm_inRange {cells : Cells} (h : CellsInRange cells) (t : FeedbackTerm) :
    Bit31Clear (feedbackTerm cells t) := by
  unfold feedbackTerm
  split
  · exact h t.cell
  · exact mulPow2_inRange _ _

theorem feedbackTerm_ne_zero {cells : Cells} (h : CellsInRange cells) (h0 : CellsNonZero cells) {t : FeedbackTerm}
    (ht : t.shift < 31) : feedbackTerm cells t ≠ 0 := by
  unfold feedbackTerm
  split
  · exact h0 t.cell
  · exact mulPow2_ne_zero (h t.cell) ht (h0 t.cell)

theorem foldl_addm_inRange {cells : Cells} (h : CellsInRange cells) (ts : List FeedbackTerm) {f : Word}
    (hf : Bit31Clear f) : Bit31Clear (ts.foldl (fun f t => addm f (feedbackTerm cells t)) f) := by
  induction ts generalizing f with
  | nil => exact hf
  | cons t ts ih => exact ih (addm_inRange hf (feedbackTerm_inRange h t))

theorem foldl_addm_ne_zero {cells : Cells} (h : CellsInRange cells) (ts : List FeedbackTerm) {f : Word}
    (hf : Bit31Clear f) (h0 : f ≠ 0) : ts.foldl (fun f t => addm f (feedbackTerm cells t)) f ≠ 0 := by
  induction ts generalizing f with
  | nil => exact h0
  | cons t ts ih =>
    exact ih (addm_inRange hf (feedbackTerm_inRange h t)) (addm_ne_zero hf (feedbackTerm_inRange h t) h0)

theorem feedbackSum_inRange (c : Params) {cells : Cells} (h : CellsInRange cells) :
    Bit31Clear (feedbackSum c cells) := by
  unfold feedbackSum
  split
  · simp [Bit31Clear]
  · exact foldl_addm_inRange h _ (feedbackTerm_inRange h _)

theorem feedbackSum_ne_zero {c : Params} (hc : c.feedback ≠ []) {cells : Cells} (h : CellsInRange cells)
    (h0 : CellsNonZero cells) : feedbackSum c cells ≠ 0 := by
  unfold feedbackSum
  split
  · contradiction
  · rename_i t ts heq
    have ht : t.shift < 31 := c.feedback_shift t (by simp [heq])
    exact foldl_addm_ne_zero h _ (feedbackTerm_inRange h _) (feedbackTerm_ne_zero h h0 ht)

theorem advanceWork_inRange (c : Params) {cells : Cells} (h : CellsInRange cells) :
    CellsInRange (advanceWork c cells) := shiftIn_all (P := Bit31Clear) h (feedbackSum_inRange c h)

theorem advanceInit_inRange (c : Params) {cells : Cells} (h : CellsInRange cells) {u : Word} (hu : Bit31Clear u) :
    CellsInRange (advanceInit c cells u) := shiftIn_all (P := Bit31Clear) h (addm_inRange (feedbackSum_inRange c h) hu)

theorem advanceWork_nonZero {c : Params} (hc : c.feedback ≠ []) {cells : Cells} (h : CellsInRange cells)
    (h0 : CellsNonZero cells) : CellsNonZero (advanceWork c cells) :=
  shiftIn_all (P := (· ≠ 0)) h0 (feedbackSum_ne_zero hc h h0)

theorem advanceInit_nonZero {c : Params} (hc : c.feedback ≠ []) {cells : Cells} (h : CellsInRange cells)
    (h0 : CellsNonZero cells) {u : Word} (hu : Bit31Clear u) : CellsNonZero (advanceInit c cells u) :=
  shiftIn_all (P := (· ≠ 0)) h0 (addm_ne_zero (feedbackSum_inRange c h) hu (feedbackSum_ne_zero hc h h0))

theorem shr1_inRange (w : Word) : Bit31Clear (shr1 w) := by
  simp [Bit31Clear, shr1, Nat.shiftRight_eq_div_pow]
  have := w.isLt
  omega

/-- A loaded cell as a number: its three fields do not overlap (R80). -/
theorem lfsrLoad_toNat (c : Params) (key iv : Block) (i : Fin 16) :
    (lfsrLoad c key iv)[i].toNat = key[i].toNat * 2 ^ 23 + (c.dTable i).toNat * 2 ^ 8 + iv[i].toNat := by
  have hk : key[i].toNat < 2 ^ 8 := key[i].isLt
  have hv : iv[i].toNat < 2 ^ 8 := iv[i].isLt
  have hd : (c.dTable i).toNat < 2 ^ 15 :=
    lt_of_lt_of_le (c.dTable i).isLt (Nat.pow_le_pow_right (by decide) c.dWidth_le)
  have e : (lfsrLoad c key iv)[i] = ((key[i].setWidth 32) <<< 23) ||| (((c.dTable i).setWidth 32) <<< 8) |||
      iv[i].setWidth 32 := by
    simp [lfsrLoad, Config.keyShift, Config.dShift]
  rw [e, BitVec.toNat_or, BitVec.toNat_or, BitVec.toNat_shiftLeft, BitVec.toNat_shiftLeft,
    BitVec.toNat_setWidth, BitVec.toNat_setWidth, BitVec.toNat_setWidth, Nat.mod_eq_of_lt (by omega : key[i].toNat < 2 ^ 32),
    Nat.mod_eq_of_lt (by omega : (c.dTable i).toNat < 2 ^ 32), Nat.mod_eq_of_lt (by omega : iv[i].toNat < 2 ^ 32),
    Nat.shiftLeft_eq, Nat.shiftLeft_eq, Nat.mod_eq_of_lt (by omega), Nat.mod_eq_of_lt (by omega), Nat.or_assoc]
  have h1 : (c.dTable i).toNat * 2 ^ 8 ||| iv[i].toNat = (c.dTable i).toNat * 2 ^ 8 + iv[i].toNat := by
    rw [Nat.mul_comm, ← Nat.two_pow_add_eq_or_of_lt hv]
  have h2 : key[i].toNat * 2 ^ 23 ||| ((c.dTable i).toNat * 2 ^ 8 + iv[i].toNat) =
      key[i].toNat * 2 ^ 23 + ((c.dTable i).toNat * 2 ^ 8 + iv[i].toNat) := by
    rw [Nat.mul_comm, ← Nat.two_pow_add_eq_or_of_lt (by omega)]
  rw [h1, h2]
  omega

theorem lfsrLoad_inRange (c : Params) (key iv : Block) : CellsInRange (lfsrLoad c key iv) := by
  intro i
  have h := lfsrLoad_toNat c key iv i
  have hk : key[i].toNat < 2 ^ 8 := key[i].isLt
  have hv : iv[i].toNat < 2 ^ 8 := iv[i].isLt
  have hd : (c.dTable i).toNat < 2 ^ 15 :=
    lt_of_lt_of_le (c.dTable i).isLt (Nat.pow_le_pow_right (by decide) c.dWidth_le)
  unfold Bit31Clear
  omega

theorem lfsrLoad_nonZero {c : Params} (hc : ∀ i, c.dTable i ≠ 0) (key iv : Block) :
    CellsNonZero (lfsrLoad c key iv) := by
  intro i h0
  have h := lfsrLoad_toNat c key iv i
  rw [h0] at h
  apply hc i
  apply BitVec.eq_of_toNat_eq
  simp at h ⊢
  omega

end Sys2Proof.Machine
end

