-- ==== Sys2Proof/Laws/State.lean ====
section
/-! SUPPORT. The small lemmas of the state's updates and of the shared operations: one a field, true by `rfl`. -/

namespace Sys2Proof.Machine

section respond
variable (s : State) (r : Response)

@[simp] theorem respond_cipher : (respond s r).cipher = s.cipher := rfl
@[simp] theorem respond_key : (respond s r).key = s.key := rfl
@[simp] theorem respond_iv : (respond s r).iv = s.iv := rfl
@[simp] theorem respond_phase : (respond s r).phase = s.phase := rfl
@[simp] theorem respond_fault : (respond s r).fault = s.fault := rfl
@[simp] theorem respond_inbox : (respond s r).inbox = s.inbox := rfl
@[simp] theorem respond_responses : (respond s r).responses = s.responses ++ [r] := rfl
@[simp] theorem respond_resets : (respond s r).resets = s.resets := rfl

end respond

section raiseFault
variable (s : State) (code : FaultCode)

@[simp] theorem raiseFault_cipher : (raiseFault code s).cipher = s.cipher := rfl
@[simp] theorem raiseFault_key : (raiseFault code s).key = s.key := rfl
@[simp] theorem raiseFault_iv : (raiseFault code s).iv = s.iv := rfl
@[simp] theorem raiseFault_phase : (raiseFault code s).phase = s.phase := rfl
@[simp] theorem raiseFault_fault : (raiseFault code s).fault = s.fault.or (some code) := rfl
@[simp] theorem raiseFault_inbox : (raiseFault code s).inbox = s.inbox := rfl
@[simp] theorem raiseFault_responses : (raiseFault code s).responses = s.responses ++ [.fault code] := rfl
@[simp] theorem raiseFault_resets : (raiseFault code s).resets = s.resets := rfl

end raiseFault

section resetEvent
variable (s : State)

@[simp] theorem resetEvent_phase : (resetEvent s).phase = .reset := rfl
@[simp] theorem resetEvent_fault : (resetEvent s).fault = none := rfl
@[simp] theorem resetEvent_inbox : (resetEvent s).inbox = s.inbox := rfl
@[simp] theorem resetEvent_responses : (resetEvent s).responses = s.responses := rfl
@[simp] theorem resetEvent_resets : (resetEvent s).resets = s.resets + 1 := rfl

end resetEvent

section ports
variable (s : State)

@[simp] theorem withNextEvent_inbox (e : HostEvent) : (s.withNextEvent e).inbox = e :: s.inbox := rfl
@[simp] theorem withEvents_inbox (es : List HostEvent) : (s.withEvents es).inbox = s.inbox ++ es := rfl
@[simp] theorem withEvents_fault (es : List HostEvent) : (s.withEvents es).fault = s.fault := rfl
@[simp] theorem withEvents_phase (es : List HostEvent) : (s.withEvents es).phase = s.phase := rfl
@[simp] theorem withEvents_responses (es : List HostEvent) : (s.withEvents es).responses = s.responses := rfl
@[simp] theorem takeEvent_nil (h : s.inbox = []) : takeEvent s = none := by simp [takeEvent, h]
theorem takeEvent_cons {e : HostEvent} {rest : List HostEvent} (h : s.inbox = e :: rest) :
    takeEvent s = some (e, { s with inbox := rest }) := by simp [takeEvent, h]

end ports

/-! ### Steps and meanings in terms of the shared operations -/

@[simp] theorem unlessLatched_none {s : State} (h : s.fault = none) (act : Result) : unlessLatched s act = act := by
  simp [unlessLatched, h]

@[simp] theorem unlessLatched_some {s : State} {code : FaultCode} (h : s.fault = some code) (act : Result) :
    unlessLatched s act = .next (respond s (.fault code)) := by
  simp [unlessLatched, h]

theorem step_idle {s : State} (h : s.inbox = []) : step s = .next s := by simp [step, h]

theorem step_event {s : State} {e : HostEvent} {rest : List HostEvent} (h : s.inbox = e :: rest) :
    step s = deliver e { s with inbox := rest } := by simp [step, takeEvent_cons s h]

theorem deliverFrame_ok {frame : List Byte} {i : Instr} (h : decode frame = .ok i) (s : State) :
    deliverFrame frame s = exec i s := by simp [deliverFrame, h]

theorem deliverFrame_error {frame : List Byte} {e : Reject} (h : decode frame = .error e) (s : State) :
    deliverFrame frame s = illegalFrame s := by simp [deliverFrame, h]

end Sys2Proof.Machine
end

