-- ==== Sys2Proof/Laws/Crypt.lean ====
section
/-! SUPPORT. What the loops of CRYPT do (R105): they never leave the data buffer, they draw one keyword a chunk, and
what they leave in the buffer is the data XORed with the keystream. -/

namespace Sys2Proof.Machine

/-! ### Rounds in sequence -/

theorem repeatRound_add (round : CipherRegs → CipherRegs) (m n : Nat) (r : CipherRegs) :
    repeatRound round (m + n) r = repeatRound round n (repeatRound round m r) := by
  induction m generalizing r with
  | zero => simp [repeatRound]
  | succ m ih => rw [Nat.add_right_comm]; exact ih (round r)

@[simp] theorem afterKeywords_zero (c : Params) (r : CipherRegs) : afterKeywords c 0 r = r := rfl

theorem afterKeywords_succ (c : Params) (n : Nat) (r : CipherRegs) :
    afterKeywords c (n + 1) r = afterKeywords c n (afterKeyword c r) := rfl

theorem afterKeywords_add (c : Params) (m n : Nat) (r : CipherRegs) :
    afterKeywords c (m + n) r = afterKeywords c n (afterKeywords c m r) := repeatRound_add _ m n r

theorem afterKeyword_afterKeywords (c : Params) (n : Nat) (r : CipherRegs) :
    afterKeyword c (afterKeywords c n r) = afterKeywords c (n + 1) r := (afterKeywords_add c n 1 r).symm

/-- A property that a round keeps is kept by the sequence of rounds. -/
theorem repeatRound_keeps {P : CipherRegs → Prop} {round : CipherRegs → CipherRegs} (h : ∀ r, P r → P (round r))
    (n : Nat) {r : CipherRegs} (hr : P r) : P (repeatRound round n r) := by
  induction n generalizing r with
  | zero => exact hr
  | succ n ih => exact ih (h r hr)

/-! ### The data buffer -/

theorem memRead_ok {buf : DataBuffer} {a : Nat} (h : a < buf.length) : memRead buf a = .ok buf[a] := by
  simp [memRead, h]

theorem memRead_outside {buf : DataBuffer} {a : Nat} (h : buf.length ≤ a) :
    memRead buf a = .error (.bufferOffset a buf.length) := by
  simp [memRead, h]

theorem memWrite_outside {buf : DataBuffer} {a : Nat} (h : buf.length ≤ a) (v : Byte) :
    memWrite buf a v = .error (.bufferOffset a buf.length) := by
  simp [memWrite, h]

theorem memXor_ok {buf : DataBuffer} {a : Nat} (h : a < buf.length) (k : Byte) :
    memXor buf a k = .ok (buf.set a (buf[a] ^^^ k)) := by
  simp [memXor, memRead_ok h, memWrite, h]

/-- A write and the reads around it. -/
theorem memRead_memWrite {buf buf' : DataBuffer} {a : Nat} {v : Byte} (h : memWrite buf a v = .ok buf') (b : Nat) :
    memRead buf' b = if b = a then .ok v else memRead buf b := by
  unfold memWrite at h
  split at h
  · rename_i ha
    cases h
    by_cases hb : b = a
    · subst hb; simp [memRead, ha]
    · simp [memRead, hb, List.getElem?_set_ne (Ne.symm hb)]
  · cases h

/-- A write keeps the buffer's length. -/
theorem memWrite_length {buf buf' : DataBuffer} {a : Nat} {v : Byte} (h : memWrite buf a v = .ok buf') :
    buf'.length = buf.length := by
  unfold memWrite at h
  split at h <;> cases h
  simp

/-! ### The loops -/

/-- The inner loop: it stays in the buffer and XORs exactly the chunk's bytes. -/
theorem xorChunk_spec (c : Params) (z : Word) (base left j : Nat) (buf : DataBuffer)
    (h : base + j + left ≤ buf.length) :
    ∃ buf', xorChunk c z base left j buf = .ok buf' ∧ buf'.length = buf.length ∧
      ∀ a, buf'[a]? = if base + j ≤ a ∧ a < base + j + left then buf[a]?.map (· ^^^ ksByte c z (a - base))
        else buf[a]? := by
  induction left generalizing j buf with
  | zero =>
    refine ⟨buf, rfl, rfl, fun a => ?_⟩
    rw [if_neg (by omega)]
  | succ left ih =>
    have hlt : base + j < buf.length := by omega
    obtain ⟨buf', he, hl, hb⟩ := ih (j + 1) (buf.set (base + j) (buf[base + j] ^^^ ksByte c z j)) (by simp; omega)
    refine ⟨buf', ?_, by simpa using hl, fun a => ?_⟩
    · simp only [xorChunk, memXor_ok hlt, he]
    · rw [hb a]
      by_cases ha : a = base + j
      · subst ha
        rw [if_neg (by omega), if_pos (by omega)]
        simp [hlt]
      · rw [List.getElem?_set_ne (Ne.symm ha)]
        by_cases hr : base + (j + 1) ≤ a ∧ a < base + (j + 1) + left
        · rw [if_pos hr, if_pos (by omega)]
        · rw [if_neg hr, if_neg (by omega)]

/-- The outer loop from chunk `i` on, `left` chunks before the end of the data. -/
theorem cryptChunks_spec (c : Params) (left i : Nat) (r : CipherRegs) (buf : DataBuffer)
    (hlo : buf.length ≤ 4 * (i + left)) (hhi : left = 0 ∨ 4 * (i + left) < buf.length + 4) :
    ∃ buf', cryptChunks c buf.length left i r buf = .ok (afterKeywords c left r, buf') ∧ buf'.length = buf.length ∧
      ∀ a, buf'[a]? = if 4 * i ≤ a then
          buf[a]?.map (· ^^^ ksByte c (keywordOf c (afterKeywords c (a / 4 - i) r)) (a % 4))
        else buf[a]? := by
  induction left generalizing i r buf with
  | zero =>
    refine ⟨buf, rfl, rfl, fun a => ?_⟩
    by_cases h : 4 * i ≤ a
    · rw [if_pos h, List.getElem?_eq_none (by omega)]; rfl
    · rw [if_neg h]
  | succ left ih =>
    obtain ⟨buf1, he1, hl1, hb1⟩ := xorChunk_spec c (keywordOf c r) (4 * i) (min 4 (buf.length - 4 * i)) 0 buf (by omega)
    obtain ⟨buf2, he2, hl2, hb2⟩ := ih (i + 1) (afterKeyword c r) buf1 (by omega) (by omega)
    refine ⟨buf2, ?_, by omega, fun a => ?_⟩
    · simp only [cryptChunks, Config.chunkBytes, he1]
      rw [hl1] at he2
      exact he2
    · rw [hb2 a, hb1 a]
      rcases Nat.lt_or_ge a (4 * i) with h | h
      · rw [if_neg (by omega), if_neg (by omega), if_neg (by omega)]
      · rw [if_pos h]
        rcases Nat.lt_or_ge a (4 * (i + 1)) with h' | h'
        · rw [if_neg (by omega)]
          have e1 : a / 4 - i = 0 := by omega
          have e2 : a % 4 = a - 4 * i := by omega
          by_cases ha : a < buf.length
          · rw [if_pos (by omega), e1, e2]; rfl
          · rw [if_neg (by omega), List.getElem?_eq_none (by omega)]; rfl
        · rw [if_pos h', if_neg (by omega)]
          have e : a / 4 - i = (a / 4 - (i + 1)) + 1 := by omega
          rw [e, afterKeywords_succ]

theorem chunkCount_eq (n : Nat) : chunkCount n = ceilDiv4 n := by
  unfold chunkCount ceilDiv4 Config.chunkBytes
  split <;> omega

@[simp] theorem keystream_length (c : Params) (r : CipherRegs) (n : Nat) : (keystream c r n).length = n := by
  simp [keystream]

theorem keystream_getElem? (c : Params) (r : CipherRegs) (n a : Nat) :
    (keystream c r n)[a]? = if a < n then some (keystreamByte c r a) else none := by
  by_cases h : a < n <;> simp [keystream, h]

@[simp] theorem xorBytes_length (xs ys : List Byte) : (xorBytes xs ys).length = min xs.length ys.length := by
  simp [xorBytes]

/-- The body of CRYPT: it always completes, draws `1 + ceil(n / 4)` keywords and answers the data XORed with the
keystream (R105, R107, R108, R109). -/
theorem cryptBody_eq (c : Params) (data : List Byte) (s : State) :
    cryptBody c data s = .next (respond
      { s with cipher := afterKeywords c (1 + ceilDiv4 data.length) s.cipher, phase := .running }
      (.ok (.data (xorBytes data (keystream c s.cipher data.length))))) := by
  obtain ⟨buf, he, hl, hb⟩ := cryptChunks_spec c (ceilDiv4 data.length) 0 (afterKeywords c 1 s.cipher) data
    (by unfold ceilDiv4; omega) (by unfold ceilDiv4; omega)
  have hbuf : buf = xorBytes data (keystream c s.cipher data.length) := by
    apply List.ext_getElem?
    intro a
    rw [hb a, if_pos (by omega), Nat.sub_zero, xorBytes, List.getElem?_zipWith, keystream_getElem?]
    by_cases ha : a < data.length
    · rw [if_pos ha, ← afterKeywords_add, Nat.add_comm]
      simp [ha, keystreamByte, keywordAt]
    · rw [if_neg ha, List.getElem?_eq_none (by omega)]; rfl
  rw [cryptBody, chunkCount_eq, show Config.cryptWarmupDiscards = 1 from rfl, he, ← afterKeywords_add, hbuf]

end Sys2Proof.Machine
end

