-- ==== Sys2Proof/Laws/Frames.lean ====
section
/-! SUPPORT. The byte order of 32-bit fields (R50), the operand blocks of INIT (R46), and what the decoder answers on
each format. -/

namespace Sys2Proof

theorem le32_toNat (b0 b1 b2 b3 : Byte) :
    (le32 b0 b1 b2 b3).toNat = b0.toNat + 2 ^ 8 * b1.toNat + 2 ^ 16 * b2.toNat + 2 ^ 24 * b3.toNat := by
  have h0 := b0.isLt
  have h1 := b1.isLt
  have h2 := b2.isLt
  simp only [le32, BitVec.toNat_append, Nat.shiftLeft_eq]
  rw [Nat.mul_comm b3.toNat, ← Nat.two_pow_add_eq_or_of_lt h2,
    Nat.mul_comm (2 ^ 8 * b3.toNat + b2.toNat), ← Nat.two_pow_add_eq_or_of_lt h1,
    Nat.mul_comm (2 ^ 8 * (2 ^ 8 * b3.toNat + b2.toNat) + b1.toNat), ← Nat.two_pow_add_eq_or_of_lt h0]
  omega

/-- Taking a word apart and putting it together again gives it back. -/
theorem le32_le32Bytes (w : Word) :
    le32 (w.extractLsb' 0 8) (w.extractLsb' 8 8) (w.extractLsb' 16 8) (w.extractLsb' 24 8) = w := by
  apply BitVec.eq_of_toNat_eq
  have hw := w.isLt
  simp only [le32_toNat, BitVec.extractLsb'_toNat, Nat.shiftRight_eq_div_pow]
  omega

/-- Putting four bytes together and taking them apart again gives them back. -/
theorem le32Bytes_le32 (b0 b1 b2 b3 : Byte) : le32Bytes (le32 b0 b1 b2 b3) = [b0, b1, b2, b3] := by
  have h0 := b0.isLt
  have h1 := b1.isLt
  have h2 := b2.isLt
  have h3 := b3.isLt
  simp only [le32Bytes, List.cons.injEq, and_true]
  refine ⟨?_, ?_, ?_, ?_⟩ <;>
  · apply BitVec.eq_of_toNat_eq
    simp only [le32_toNat, BitVec.extractLsb'_toNat, Nat.shiftRight_eq_div_pow]
    omega

@[simp] theorem le32Bytes_length (w : Word) : (le32Bytes w).length = 4 := rfl

theorem operandBlock_fst (key iv : Block) : operandBlock (key.toList ++ iv.toList) 0 = key := by
  ext i hi
  simp [operandBlock, List.getD, List.getElem?_append]

theorem operandBlock_snd (key iv : Block) : operandBlock (key.toList ++ iv.toList) 16 = iv := by
  ext i hi
  simp [operandBlock, List.getD, List.getElem?_append]

/-- Thirty-two bytes are the two blocks cut from them. -/
theorem operandBlock_join {operands : List Byte} (h : operands.length = 32) :
    (operandBlock operands 0).toList ++ (operandBlock operands 16).toList = operands := by
  apply List.ext_getElem
  · simp [h]
  · intro i h1 h2
    by_cases hi : i < 16
    · simp [operandBlock, hi, h2]
    · have e : 16 + (i - 16) = i := by omega
      simp [operandBlock, List.getElem_append, hi, e, h2]

/-! ### The decoder, format by format -/

theorem decodeFor_init (c : Params) (operands : List Byte) :
    decodeFor c (opInit :: operands) = if operands.length = 32
      then .ok (.init (operandBlock operands 0) (operandBlock operands 16))
      else .error (.frameLength 33 (1 + operands.length)) := by
  simp [decodeFor]

theorem decodeFor_genkw (c : Params) (operands : List Byte) :
    decodeFor c (opGenkw :: operands) = if operands.length = 0 then .ok .genkw
      else .error (.frameLength 1 (1 + operands.length)) := by
  simp [decodeFor, opGenkw, opInit]

theorem decodeFor_crypt (c : Params) (operands : List Byte) :
    decodeFor c (opCrypt :: operands) = decodeCrypt c operands := by
  simp [decodeFor, opCrypt, opGenkw, opInit]

theorem decodeFor_reserved (c : Params) {op : Byte} (operands : List Byte) (h1 : op ≠ opInit) (h2 : op ≠ opGenkw)
    (h3 : op ≠ opCrypt) : decodeFor c (op :: operands) = .error (.reservedOpcode op) := by
  simp [decodeFor, h1, h2, h3]

theorem decodeCrypt_le32 (c : Params) (w : Word) (data : List Byte) :
    decodeCrypt c (le32Bytes w ++ data) = if data.length ≠ w.toNat then .error (.frameLength (5 + w.toNat) (5 + data.length))
      else if c.maxLen < w.toNat then .error (.overMaxLen w.toNat) else .ok (.crypt data) := by
  simp only [le32Bytes, List.cons_append, List.nil_append, decodeCrypt, le32_le32Bytes]

theorem decodeCrypt_short (c : Params) {operands : List Byte} (h : operands.length < 4) :
    decodeCrypt c operands = .error (.lenFieldMissing (1 + operands.length)) := by
  rcases operands with _ | ⟨_, _ | ⟨_, _ | ⟨_, _ | ⟨_, _⟩⟩⟩⟩
  · rfl
  · rfl
  · rfl
  · rfl
  · simp only [List.length_cons] at h
    omega

theorem ofNat_toNat_of_wellFormed {c : Params} {data : List Byte} (h : data.length ≤ c.maxLen) :
    (BitVec.ofNat 32 data.length).toNat = data.length := by
  have := c.maxLen_lt
  rw [BitVec.toNat_ofNat, Nat.mod_eq_of_lt (by omega)]

/-- A CRYPT frame of well-formed data decodes to it. -/
theorem decodeFor_encode_crypt {c : Params} {data : List Byte} (h : data.length ≤ c.maxLen) :
    decodeFor c (encode (.crypt data)) = .ok (.crypt data) := by
  rw [encode, decodeFor_crypt, decodeCrypt_le32, ofNat_toNat_of_wellFormed h, if_neg (by simp), if_neg (by omega)]

theorem decodeFor_encode_init (c : Params) (key iv : Block) :
    decodeFor c (encode (.init key iv)) = .ok (.init key iv) := by
  rw [encode, decodeFor_init, operandBlock_fst, operandBlock_snd, if_pos (by simp)]

theorem decodeFor_encode_genkw (c : Params) : decodeFor c (encode .genkw) = .ok .genkw := by
  rw [encode, decodeFor_genkw]; rfl

end Sys2Proof
end

