-- ==== Sys2Proof/Laws/Host.lean ====
section
/-! SUPPORT. The host's small operations: the bytes of the expanded key (R126), the fields of a header (R128), and the
files (R140). -/

namespace Sys2Proof.Machine

/-- Byte `k` of the buffer is mixed from the generator's `k + 1`-st state (R126). -/
theorem expandFrom_getElem? (password : List Byte) (left i : Nat) (state : Word) {k : Nat} (h : k < left) :
    (expandFrom password left i state)[k]? =
      some (mixByte password (i + k) (lcgOutput (lcgUpdate^[k + 1] state))) := by
  induction left generalizing i state k with
  | zero => omega
  | succ left ih =>
    cases k with
    | zero => simp [expandFrom]
    | succ k =>
      rw [expandFrom, List.getElem?_cons_succ, ih (i + 1) _ (by omega), Nat.add_right_comm i 1 k, Nat.add_assoc i k 1,
        ← Function.iterate_succ_apply]

/-- The header of a container is found where it was written (R128). -/
theorem wordAt_originalSize (h : ContainerHeader) (body : List Byte) : wordAt (h.bytes ++ body) 4 = h.originalSize :=
  le32_le32Bytes h.originalSize

theorem wordAt_checksum (h : ContainerHeader) (body : List Byte) : wordAt (h.bytes ++ body) 8 = h.checksum :=
  le32_le32Bytes h.checksum

theorem isContainer_bytes (h : ContainerHeader) (body : List Byte) : isContainer (h.bytes ++ body) = true := by
  simp [isContainer, ContainerHeader.bytes, magic]

@[simp] theorem containerHeader_bytes_length (h : ContainerHeader) : h.bytes.length = headerLength := rfl

/-- What follows a header (R128). -/
theorem drop_headerLength (h : ContainerHeader) (body : List Byte) : (h.bytes ++ body).drop headerLength = body :=
  List.drop_left' (containerHeader_bytes_length h)

/-- Steps 1 and 2 of `decrypt` on a header and what follows it, the size in its range (R132). -/
theorem checkContainer_bytes {h : ContainerHeader} (body : List Byte) (h1 : 1 ≤ h.originalSize.toInt)
    (h2 : h.originalSize.toInt ≤ 4084) : checkContainer (h.bytes ++ body) =
      if body.length < h.originalSize.toNat then .error .truncated else .ok h := by
  have hm : maxPlaintext = 4084 := rfl
  unfold checkContainer parseHeader
  rw [wordAt_originalSize, wordAt_checksum, drop_headerLength]
  simp only [isContainer_bytes]
  rw [hm, if_neg (by simp), if_neg (by simp), if_neg (by push_cast; omega)]

/-! ### Files -/

/-- A file that was replaced holds what replaced it (R140). -/
@[simp] theorem contents_replace (fs : FileStore) (path : String) (bytes : List Byte) :
    (fs.replace path bytes).contents path = some bytes := by
  simp [FileStore.contents, FileStore.replace]

/-- Replacing a file leaves every other file as it was (R140). -/
theorem contents_replace_ne (fs : FileStore) {path other : String} (bytes : List Byte) (h : other ≠ path) :
    (fs.replace path bytes).contents other = fs.contents other := by
  have hb : (other == path) = false := by simpa using h
  have hl : List.lookup other (fs.files.filter fun f => f.1 ≠ path) = List.lookup other fs.files := by
    induction fs.files with
    | nil => rfl
    | cons f files ih =>
      obtain ⟨name, contents⟩ := f
      by_cases hn : name = path
      · subst hn
        simpa [List.filter, List.lookup, hb] using ih
      · simp only [List.filter, hn, List.lookup, decide_true, not_false_eq_true, ne_eq]
        split
        · rfl
        · exact ih
  simp only [FileStore.contents, FileStore.replace, List.lookup, hb, hl]

/-- A read that fails is an error, whether or not the file exists (R140). -/
@[simp] theorem read_failed (fs : FileStore) (path : String) : fs.read path .failed = .error .io := rfl

/-- A read that succeeds gives what the file holds (R140). -/
theorem read_ok {fs : FileStore} {path : String} {outcome : ReadOutcome} {bytes : List Byte}
    (h : fs.read path outcome = .ok bytes) : outcome = .done ∧ fs.contents path = some bytes := by
  cases outcome with
  | failed => cases h
  | done =>
    cases hc : fs.contents path with
    | none => simp [FileStore.read, hc] at h
    | some contents => simpa [FileStore.read, hc] using h

/-- A key file that gives a password was read and exists (R136). -/
theorem readKey_ok {fs : FileStore} {path : String} {outcome : ReadOutcome} {password : List Byte}
    (h : fs.readKey path outcome = .ok password) : outcome = .done ∧ ∃ bytes, fs.contents path = some bytes := by
  unfold FileStore.readKey FileStore.readRange at h
  cases hr : fs.read path outcome with
  | error e => simp [hr] at h
  | ok bytes => exact ⟨(read_ok hr).1, bytes, (read_ok hr).2⟩

/-- A command past its reads had both of them succeed, and starts from what its file holds (R139). -/
theorem readBoth_ok {fs : FileStore} {keyPath path : String} {outcomes : FileOutcomes} {password old : List Byte}
    (h : fs.readBoth keyPath path outcomes = .ok (password, old)) :
    outcomes.keyRead = .done ∧ outcomes.fileRead = .done ∧ (∃ bytes, fs.contents keyPath = some bytes) ∧
      fs.contents path = some old := by
  unfold FileStore.readBoth at h
  cases hk : fs.readKey keyPath outcomes.keyRead with
  | error e => simp [hk] at h
  | ok key =>
    cases hr : fs.read path outcomes.fileRead with
    | error e => simp [hk, hr] at h
    | ok bytes =>
      simp only [hk, hr, Except.ok.injEq, Prod.mk.injEq] at h
      exact ⟨(readKey_ok hk).1, (read_ok hr).1, (readKey_ok hk).2, h.2 ▸ (read_ok hr).2⟩

/-- Everything a command that rewrites a file can do (R139): stop at a read, stop at the operation, or write. -/
theorem rewriteFile_cases (fs : FileStore) (keyPath path : String)
    (operation : (password old : List Byte) → Except HostStop (List Byte)) (outcomes : FileOutcomes) :
    (∃ e, fs.readBoth keyPath path outcomes = .error e ∧
      rewriteFile fs keyPath path operation outcomes = ⟨fs, .error (.error e)⟩) ∨
    (∃ password old stop, fs.readBoth keyPath path outcomes = .ok (password, old) ∧
      operation password old = .error stop ∧
      rewriteFile fs keyPath path operation outcomes = ⟨fs, .error stop⟩) ∨
    (∃ password old new, fs.readBoth keyPath path outcomes = .ok (password, old) ∧
      operation password old = .ok new ∧
      rewriteFile fs keyPath path operation outcomes =
        match outcomes.write with
        | .done => ⟨fs.replace path new, .ok new⟩
        | .failedBeforeTruncation => ⟨fs, .error (.error .io)⟩
        | .failedAfterTruncation => ⟨fs.replace path [], .error (.error .io)⟩) := by
  cases hr : fs.readBoth keyPath path outcomes with
  | error e => exact .inl ⟨e, rfl, by simp [rewriteFile, hr]⟩
  | ok both =>
    obtain ⟨password, old⟩ := both
    right
    cases ho : operation password old with
    | error stop => exact .inl ⟨password, old, stop, rfl, ho, by simp [rewriteFile, hr, ho]⟩
    | ok new =>
      refine .inr ⟨password, old, new, rfl, ho, ?_⟩
      cases hw : outcomes.write <;> simp [rewriteFile, hr, ho, hw, FileStore.write]

end Sys2Proof.Machine
end

