-- ==== Sys2Proof/Laws/PerInstr.lean ====
section
/-! SUPPORT. Per-instruction families. `EncodeFraming`: the required length read from a command's own frame is the
frame's length, whatever follows it on the transport (R54). -/

namespace Sys2Proof.Laws.EncodeFraming

/-- The frame's length can be told from its head, whatever follows. -/
def Statement (i : Instr) : Prop :=
  i.wellFormed = true → ∀ rest, requiredLength (encode i ++ rest) = some (encode i).length

theorem init (key iv : Block) : Statement (.init key iv) := by
  intro _ rest
  simp [encode, requiredLength]

theorem genkw : Statement .genkw := by
  intro _ rest
  simp [encode, requiredLength, opGenkw, opInit]

theorem crypt (data : List Byte) : Statement (.crypt data) := by
  intro h rest
  have hl : data.length ≤ Config.params.maxLen := by simpa [Instr.wellFormed, Instr.wellFormedFor] using h
  have hn := ofNat_toNat_of_wellFormed hl
  simp only [encode, le32Bytes, List.cons_append, List.nil_append, requiredLength, opCrypt, opGenkw, opInit]
  simp only [le32_le32Bytes, hn]
  simp
  omega

end Sys2Proof.Laws.EncodeFraming
end

