-- ==== Sys2Proof/Laws/Step.lean ====
section
/-! SUPPORT. What a command and a step can do, said once: each meaning as one equation a case, the inversion of `exec`
and of `step`, and the events of a run one after the other. -/

namespace Sys2Proof.Machine

/-! ### The meanings, case by case (R101 to R105, R112) -/

theorem exec_latched {s : State} {code : FaultCode} (h : s.fault = some code) (i : Instr) :
    exec i s = .next (respond s (.fault code)) := by
  cases i <;> simp [exec, execInit, execGenkw, execCrypt, h]

theorem exec_init {s : State} (h : s.fault = none) (key iv : Block) :
    exec (.init key iv) s = .next (respond
      { s with key := key, iv := iv, cipher := initialRegs Config.params key iv, phase := .fresh } (.ok .empty)) := by
  simp [exec, execInit, h, runInit]

theorem exec_genkw_reset {s : State} (h : s.fault = none) (hp : s.phase = .reset) :
    exec .genkw s = .next (raiseFault .notInitialised s) := by
  simp [exec, execGenkw, h, runGenkw, hp]

theorem exec_genkw_ready {s : State} (h : s.fault = none) (hp : s.phase ≠ .reset) :
    exec .genkw s = .next (respond { s with cipher := afterKeyword Config.params s.cipher, phase := .running }
      (.ok (.keyword (keywordOf Config.params s.cipher)))) := by
  cases hp' : s.phase <;> simp_all [exec, execGenkw, runGenkw]

theorem exec_crypt_reset {s : State} (h : s.fault = none) (hp : s.phase = .reset) (data : List Byte) :
    exec (.crypt data) s = .next (raiseFault .notInitialised s) := by
  simp [exec, execCrypt, h, runCrypt, hp]

theorem exec_crypt_running {s : State} (h : s.fault = none) (hp : s.phase = .running) (data : List Byte) :
    exec (.crypt data) s = .next (raiseFault .notFresh s) := by
  simp [exec, execCrypt, h, runCrypt, hp, Config.params]

theorem exec_crypt_fresh {s : State} (h : s.fault = none) (hp : s.phase = .fresh) (data : List Byte) :
    exec (.crypt data) s = .next (respond
      { s with cipher := afterKeywords Config.params (1 + ceilDiv4 data.length) s.cipher, phase := .running }
      (.ok (.data (xorBytes data (keystream Config.params s.cipher data.length))))) := by
  simp [exec, execCrypt, h, runCrypt, hp, cryptBody_eq]

theorem phase_cases (s : State) : s.phase = .reset ∨ s.phase = .fresh ∨ s.phase = .running := by
  cases s.phase <;> simp

/-- Everything a command can do: answer a latched fault, raise one of the two faults of the commands, or one of the
three effects (R100, R112). -/
theorem exec_cases (i : Instr) (s : State) :
    (∃ code, s.fault = some code ∧ exec i s = .next (respond s (.fault code))) ∨
    (s.fault = none ∧ s.phase = .reset ∧ (i = .genkw ∨ ∃ data, i = .crypt data) ∧
      exec i s = .next (raiseFault .notInitialised s)) ∨
    (s.fault = none ∧ s.phase = .running ∧ (∃ data, i = .crypt data) ∧
      exec i s = .next (raiseFault .notFresh s)) ∨
    (∃ key iv, s.fault = none ∧ i = .init key iv ∧ exec i s = .next (respond
      { s with key := key, iv := iv, cipher := initialRegs Config.params key iv, phase := .fresh } (.ok .empty))) ∨
    (s.fault = none ∧ s.phase ≠ .reset ∧ i = .genkw ∧ exec i s = .next (respond
      { s with cipher := afterKeyword Config.params s.cipher, phase := .running }
      (.ok (.keyword (keywordOf Config.params s.cipher))))) ∨
    (∃ data, s.fault = none ∧ s.phase = .fresh ∧ i = .crypt data ∧ exec i s = .next (respond
      { s with cipher := afterKeywords Config.params (1 + ceilDiv4 data.length) s.cipher, phase := .running }
      (.ok (.data (xorBytes data (keystream Config.params s.cipher data.length)))))) := by
  rcases Option.eq_none_or_eq_some s.fault with hf | ⟨code, hf⟩
  · right
    cases i with
    | init key iv => exact .inr (.inr (.inl ⟨key, iv, hf, rfl, exec_init hf key iv⟩))
    | genkw =>
      by_cases hp : s.phase = .reset
      · exact .inl ⟨hf, hp, .inl rfl, exec_genkw_reset hf hp⟩
      · exact .inr (.inr (.inr (.inl ⟨hf, hp, rfl, exec_genkw_ready hf hp⟩)))
    | crypt data =>
      rcases phase_cases s with hp | hp | hp
      · exact .inl ⟨hf, hp, .inr ⟨data, rfl⟩, exec_crypt_reset hf hp data⟩
      · exact .inr (.inr (.inr (.inr ⟨data, hf, hp, rfl, exec_crypt_fresh hf hp data⟩)))
      · exact .inr (.inl ⟨hf, hp, ⟨data, rfl⟩, exec_crypt_running hf hp data⟩)
  · exact .inl ⟨code, hf, exec_latched hf i⟩

/-- What an illegal frame does (R153). -/
theorem illegalFrame_cases (s : State) :
    (∃ code, s.fault = some code ∧ illegalFrame s = .next (respond s (.fault code))) ∨
    (s.fault = none ∧ illegalFrame s = .next (raiseFault .illegalCommand s)) := by
  cases hf : s.fault with
  | some code => exact .inl ⟨code, rfl, by simp [illegalFrame, hf]⟩
  | none => exact .inr ⟨rfl, by simp [illegalFrame, hf]⟩

/-- Everything a step can do: wait, take a RESET event, answer an illegal frame, or run the command a frame carries. -/
theorem step_cases (s : State) :
    (s.inbox = [] ∧ step s = .next s) ∨
    (∃ rest, s.inbox = .reset :: rest ∧ step s = .next (resetEvent { s with inbox := rest })) ∨
    (∃ frame rest e, s.inbox = .command frame :: rest ∧ decode frame = .error e ∧
      step s = illegalFrame { s with inbox := rest }) ∨
    (∃ frame rest i, s.inbox = .command frame :: rest ∧ decode frame = .ok i ∧
      step s = exec i { s with inbox := rest }) := by
  cases h : s.inbox with
  | nil => exact .inl ⟨rfl, step_idle h⟩
  | cons e rest =>
    right
    cases e with
    | reset => exact .inl ⟨rest, rfl, step_event h⟩
    | command frame =>
      right
      cases hd : decode frame with
      | error e => exact .inl ⟨frame, rest, e, rfl, hd, (step_event h).trans (deliverFrame_error hd _)⟩
      | ok i => exact .inr ⟨frame, rest, i, rfl, hd, (step_event h).trans (deliverFrame_ok hd _)⟩

/-! ### Runs -/

/-- A run whose first step answers `s'` goes on from `s'`. -/
theorem runSteps_succ {s s' : State} (h : step s = .next s') (n : Nat) : runSteps (n + 1) s = runSteps n s' := by
  simp [runSteps, h]

/-- Delivering one event more: the event, then the rest of the run. -/
theorem runSteps_event {s t : State} {e : HostEvent} {rest : List HostEvent} (h : s.inbox = e :: rest)
    (ht : deliver e { s with inbox := rest } = .next t) (n : Nat) : runSteps (n + 1) s = runSteps n t :=
  runSteps_succ ((step_event h).trans ht) n

theorem deliver_reset (s : State) : deliver .reset s = .next (resetEvent s) := rfl

theorem deliver_issue_init (s : State) (key iv : Block) : deliver (issue (.init key iv)) s = exec (.init key iv) s :=
  deliverFrame_ok (decodeFor_encode_init Config.params key iv) s

theorem deliver_issue_genkw (s : State) : deliver (issue .genkw) s = exec .genkw s :=
  deliverFrame_ok (decodeFor_encode_genkw Config.params) s

theorem deliver_issue_crypt (s : State) {data : List Byte} (h : data.length ≤ Config.params.maxLen) :
    deliver (issue (.crypt data)) s = exec (.crypt data) s := deliverFrame_ok (decodeFor_encode_crypt h) s

end Sys2Proof.Machine
end

