-- ==== Sys2Proof/Tests/Slice0.lean ====
section
/-! SUPPORT. Tests whose expected values are the spec's own (spec/95_test_vectors.md and the examples of the rules), and
a named witness for every obligation that has hypotheses. -/

namespace Sys2Proof.Tests
open Sys2Proof.Machine

set_option maxRecDepth 100000

/-! ### Helpers -/

/-- What an outcome says of its next state. -/
def next (out : Result) (p : State → Bool) : Bool :=
  match out with
  | .next t => p t
  | _ => false

/-- Sixteen equal bytes. -/
def all (b : Byte) : Block := Vector.replicate 16 b

/-- The registers after INIT with the all-zero key and IV (95_test_vectors.md 3.1). -/
def v0 : CipherRegs :=
  ⟨#v[0x747CA0C4, 0x6259DD0B, 0x47A94C2B, 0x3A89C82E, 0x32B433FC, 0x231EA13F, 0x31711E42, 0x4CCCE955,
    0x3FB6071E, 0x161D3512, 0x7114B136, 0x5154D452, 0x78C69A74, 0x4F26BA6B, 0x3E1B8D6A, 0x7F08E141],
    0x3512BF50, 0xA0920453⟩

/-- The cells as loaded from the all-zero key and IV (R71, last column). -/
def loaded : Cells := lfsrLoad Config.params (all 0) (all 0)

/-- A state with the given control fields and waiting events, its registers those of `v0`. -/
def st (phase : Phase) (fault : Option FaultCode) (inbox : List HostEvent) : State :=
  ⟨v0, all 0, all 0, phase, fault, inbox, [], 1⟩

/-- The frame of INIT with the all-zero key and IV. -/
def initFrame : List Byte := 0x01 :: List.replicate 32 0

/-! ### Well-formedness: one check, one term it refuses -/

theorem test_wellFormed_refuses_over_max_len : (Instr.crypt (List.replicate (2 ^ 32) 0)).wellFormed = false := by
  simp only [Instr.wellFormed, Instr.wellFormedFor, List.length_replicate]
  decide

theorem test_wellFormed_accepts :
    (Instr.crypt [0]).wellFormed ∧ (Instr.crypt []).wellFormed ∧ Instr.genkw.wellFormed ∧
      (Instr.init (all 0) (all 0xFF)).wellFormed := by decide

/-! ### Decoding: frames written out from R46 to R48, and the frames R52 calls illegal (95_test_vectors.md 4.6, P3) -/

theorem test_decode_init :
    decode [0x01, 0x00, 0x01, 0x02, 0x03, 0x04, 0x05, 0x06, 0x07, 0x08, 0x09, 0x0A, 0x0B, 0x0C, 0x0D, 0x0E, 0x0F,
      0x10, 0x11, 0x12, 0x13, 0x14, 0x15, 0x16, 0x17, 0x18, 0x19, 0x1A, 0x1B, 0x1C, 0x1D, 0x1E, 0x1F] =
    .ok (.init #v[0x00, 0x01, 0x02, 0x03, 0x04, 0x05, 0x06, 0x07, 0x08, 0x09, 0x0A, 0x0B, 0x0C, 0x0D, 0x0E, 0x0F]
      #v[0x10, 0x11, 0x12, 0x13, 0x14, 0x15, 0x16, 0x17, 0x18, 0x19, 0x1A, 0x1B, 0x1C, 0x1D, 0x1E, 0x1F]) := by rfl

theorem test_decode_genkw : decode [0x02] = .ok .genkw := by rfl

theorem test_decode_crypt : decode [0x03, 0x07, 0x00, 0x00, 0x00, 0x4F, 0x53, 0x77, 0x6F, 0x72, 0x6B, 0x21] =
    .ok (.crypt [0x4F, 0x53, 0x77, 0x6F, 0x72, 0x6B, 0x21]) := by rfl

theorem test_decode_crypt_empty : decode [0x03, 0x00, 0x00, 0x00, 0x00] = .ok (.crypt []) := by rfl

/-- The length field is little-endian: 0x00000100 is 256 and not 65536 (R48). -/
theorem test_decode_length_field : decode [0x03, 0x00, 0x01, 0x00, 0x00, 0xAA] = .error (.frameLength 261 6) := by rfl

theorem test_decode_illegal :
    decode [] = .error .emptyFrame ∧ decode [0x00] = .error (.reservedOpcode 0x00) ∧
    decode [0x04] = .error (.reservedOpcode 0x04) ∧ decode [0xFF] = .error (.reservedOpcode 0xFF) ∧
    decode (0x01 :: List.replicate 31 0) = .error (.frameLength 33 32) ∧
    decode (0x01 :: List.replicate 33 0) = .error (.frameLength 33 34) ∧
    decode [0x02, 0x00] = .error (.frameLength 1 2) ∧ decode [0x03] = .error (.lenFieldMissing 1) ∧
    decode [0x03, 0x01, 0x00, 0x00] = .error (.lenFieldMissing 4) ∧
    decode [0x03, 0x05, 0x00, 0x00, 0x00, 0xAA] = .error (.frameLength 10 6) ∧
    decode [0x03, 0x00, 0x00, 0x00, 0x00, 0xAA] = .error (.frameLength 5 6) :=
  ⟨rfl, rfl, rfl, rfl, rfl, rfl, rfl, rfl, rfl, rfl, rfl⟩

theorem test_encode : encode (.crypt [0x68, 0x69]) = [0x03, 0x02, 0x00, 0x00, 0x00, 0x68, 0x69] ∧
    encode .genkw = [0x02] ∧ encode (.init (all 0) (all 0)) = initFrame := by decide

theorem test_cutFrame : cutFrame [0x02, 0x03, 0x00] = some ([0x02], [0x03, 0x00]) ∧
    cutFrame [0x03, 0x01, 0x00, 0x00, 0x00, 0xAA, 0x02] = some ([0x03, 0x01, 0x00, 0x00, 0x00, 0xAA], [0x02]) ∧
    cutFrame [0x03, 0x01, 0x00, 0x00] = none ∧ cutFrame (0x01 :: List.replicate 31 0) = none := by decide

/-- The table's words: opcode 0x01 with 264 bits, 0x02 with 8, 0x03 with a length of two and its data. -/
theorem test_decodeTableWord : decodeTableWord 264 0x01 = some (.init (all 0) (all 0)) ∧
    decodeTableWord 8 0x02 = some .genkw ∧ decodeTableWord 8 0x03 = some (.crypt []) ∧
    decodeTableWord 56 0x69680000000203 = some (.crypt [0x68, 0x69]) ∧ decodeTableWord 8 0x04 = none := by decide

theorem test_withFetchWord :
    next (step (State.reset.withFetchWord 8 0x01)) (fun t => decide (t.phase = .fresh ∧ t.responses = [.ok .empty])) ∧
    next (step (State.reset.withFetchWord 8 0x02)) (fun t => decide (t.responses = [.fault .notInitialised])) ∧
    next (step (State.reset.withFetchWord 8 0x03)) (fun t => decide (t.responses = [.fault .notInitialised])) ∧
    next (step (State.reset.withFetchWord 8 0x00)) (fun t => decide (t.responses = [.fault .illegalCommand])) := by
  decide

/-! ### Primitives: the examples of R61 to R68, R80, R82, R83, R90, R91 -/

theorem test_addm : addm 0x6F1BFDD3 0x56000047 = 0x451BFE1B ∧ addm 0x40000000 0x3FFFFFFF = 0x7FFFFFFF ∧
    addm 0x7FFFFFFF 0 = 0x7FFFFFFF ∧ addm 0x771CCC9A 0x7FC7CD7F = 0x76E49A1A := by decide

theorem test_mulPow2 : mulPow2 0x12345678 8 = 0x34567824 ∧ mulPow2 0x40000000 1 = 0x00000001 ∧
    mulPow2 0x0044D700 8 = 0x44D70000 := by decide

theorem test_rotl32 : rotl32 0x80000001 2 = 0x00000006 ∧ rotl32 0x12345678 8 = 0x34567812 := by decide

theorem test_l1 : l1 0x00000001 = 0x01040405 ∧ l1 0x12345678 = 0xAA4E9357 ∧ l1 0xDEADBEEF = 0x06812D22 := by decide

theorem test_l2 : l2 0x00000001 = 0x40404101 ∧ l2 0x12345678 = 0xA975B26C ∧ l2 0xDEADBEEF = 0x50F4624E := by decide

theorem test_sbox : sbox Config.params 0x00000000 = 0x3E553E55 ∧ sbox Config.params 0xFFFFFFFF = 0x60F260F2 ∧
    sbox Config.params 0x12345678 = 0xF9C05A4E := by decide

theorem test_shr1 : shr1 0x008F9A00 = 0x0047CD00 ∧ shr1 0xFFFFFFFF = 0x7FFFFFFF ∧ shr1 0x00000001 = 0 := by decide

/-- Rows and columns of R72 and R73 away from the edges of the model's 32-byte rows. -/
theorem test_table_entries : Config.params.s0Table 0x1F = 0x90 ∧ Config.params.s0Table 0x20 = 0x4D ∧
    Config.params.s0Table 0x8A = 0x3C ∧ Config.params.s1Table 0x34 = 0xC0 ∧ Config.params.s1Table 0xC4 = 0xE6 ∧
    Config.params.dTable 7 = 0x09AF ∧ Config.params.dTable 8 = 0x4D78 := by decide

theorem test_load : (lfsrLoad Config.params (all 0x3D) (all 0x84))[0] = 0x1EC4D784 ∧
    (lfsrLoad Config.params (all 0xFF) (all 0xFF))[15] = 0x7FC7ACFF := by decide

theorem test_feedbackSum : feedbackSum Config.params loaded = 0x451BFE1B := by decide

theorem test_advanceInit : (advanceInit Config.params loaded 0x0047CD00)[15] = 0x4563CB1B ∧
    (advanceInit Config.params loaded 0x0047CD00)[14] = 0x0047AC00 ∧
    (advanceInit Config.params loaded 0x0047CD00)[0] = 0x0026BC00 := by decide

theorem test_bitReorg :
    bitReorg Config.params loaded = ⟨0x008F9A00, 0xF100005E, 0xAF00006B, 0x6B000089⟩ := by decide

theorem test_nonlinearF :
    nonlinearF Config.params 0x67822141 0x62A3A55F 0x8AC7AC00 0x260000D7 0x780000E2 =
      ⟨0x4FE932A0, 0x474A2E7E, 0x119E94BB⟩ := by decide

theorem test_ksByte : ksByte Config.params 0x018082DA 0 = 0xDA ∧ ksByte Config.params 0x018082DA 3 = 0x01 ∧
    ksByte { Config.params with ksByteOrder := .be } 0x018082DA 0 = 0x01 ∧
    ksByte { Config.params with ksByteOrder := .be } 0x018082DA 3 = 0xDA := by decide

/-! ### The commands: 95_test_vectors.md 3.1, 2.1, 4, 5 -/

theorem test_init_v0 : next (exec (.init (all 0) (all 0)) (st .running none []))
    (fun t => decide (t.cipher = v0 ∧ t.phase = .fresh ∧ t.responses = [.ok .empty])) := by decide

/-- The published vector with every operand byte 0xFF: its first keyword. -/
theorem test_init_v1 : keywordAt Config.params (initialRegs Config.params (all 0xFF) (all 0xFF)) 0 = 0x0657CFA0 := by
  decide

theorem test_genkw_v0 : next (exec .genkw (st .fresh none []))
    (fun t => decide (t.responses = [.ok (.keyword 0x27BEDE74)] ∧ t.cipher.lfsr[15] = 0x3D383D04 ∧
      t.cipher.lfsr[14] = 0x7F08E141 ∧ t.cipher.r1 = 0xC7EE7F13 ∧ t.cipher.r2 = 0x0C0FA817)) := by decide

theorem test_crypt_hello : next (exec (.crypt (asciiBytes "hello\n")) (st .fresh none []))
    (fun t => decide (t.responses = [.ok (.data [0xB2, 0xE7, 0xEC, 0x6D, 0xD9, 0xEF])] ∧
      t.cipher.lfsr[15] = 0x51FDE77F ∧ t.cipher.r1 = 0x0FE2EFDE ∧ t.cipher.r2 = 0x920E9217)) := by decide

/-- The same with `KS_BYTE_ORDER = BE`. -/
theorem test_crypt_hello_be :
    next (runCrypt { Config.params with ksByteOrder := .be } (asciiBytes "hello\n") (st .fresh none []))
    (fun t => decide (t.responses = [.ok (.data [0x69, 0xE5, 0xEE, 0xB6, 0xE8, 0xDE])])) := by decide

/-- P5: a reused engine, then the latched fault. -/
theorem test_reuse_refused : next (runEvents [issue (.crypt [0]), issue (.crypt [0]), issue .genkw] (st .fresh none []))
    (fun t => decide (t.responses = [.ok (.data [0xDA]), .fault .notFresh, .fault .notFresh] ∧
      t.phase = .running ∧ t.fault = some .notFresh)) := by decide

/-- P4: use before INIT, INIT refused while the fault is latched, RESET clears it. -/
theorem test_recovery :
    next (runEvents [issue .genkw, issue (.init (all 0) (all 0)), .reset, .command [0x04]] State.reset)
    (fun t => decide (t.responses = [.fault .notInitialised, .fault .notInitialised, .fault .illegalCommand] ∧
      t.phase = .reset ∧ t.fault = some .illegalCommand)) := by decide

theorem test_response_frames : (Response.ok (.keyword 0x27BEDE74)).frame = [0x00, 0x74, 0xDE, 0xBE, 0x27] ∧
    (Response.fault .notFresh).frame = [0x03] := by decide

theorem test_asm_text : (AsmLine.crypt [0xB1, 0xE9, 0x0A]).text = "CRYPT B1E90A" ∧
    (AsmLine.crypt []).text = "CRYPT (empty)" ∧ (AsmLine.cryptText "hello\n").text = "CRYPT \"hello\\n\"" := by decide

/-! ### The host software: 95_test_vectors.md 1.1, 6 -/

/-- The passwords of 6.1 and 6.2. -/
def abcd : List Byte := [0x61, 0x62, 0x63, 0x64]
def password : List Byte := [0x70, 0x61, 0x73, 0x73, 0x77, 0x6F, 0x72, 0x64]

theorem test_seed : seedOf 0 abcd = 0x002D9442 ∧ seedOf 0 password = 0x4889BA9B := by decide

theorem test_lcg : lcgUpdate 0x002D9442 = 0x63A06C53 ∧ lcgOutput 0x63A06C53 = 0x63A0 ∧
    lcgUpdate 0x63A06C53 = 0x27819990 := by decide

theorem test_expand_beginning : expandFrom password 4 0 (seedOf 0 password) = [0x11, 0x41, 0x3F, 0xCC] ∧
    expandFrom abcd 4 0 (seedOf 0 abcd) = [0xC1, 0x44, 0xFE, 0xE0] := by decide

theorem test_checksum : checksum [65, 66] = 64511 ∧ checksum (asciiBytes "hello") = 0x3A016E ∧
    checksum (asciiBytes "hello\nworld") = 0x435E26 := by decide

/-- The header of the container of "hello" (R128). -/
theorem test_header : ContainerHeader.bytes ⟨5, 0x3A016E⟩ =
    [0x45, 0x4E, 0x43, 0x31, 0x05, 0x00, 0x00, 0x00, 0x6E, 0x01, 0x3A, 0x00] := by decide

theorem test_host_errors : checkPlaintext (asciiBytes "ENC1xyz") = .error .alreadyEncrypted ∧
    checkPlaintext [] = .error .emptyInput ∧
    checkContainer (asciiBytes "ENC2" ++ List.replicate 20 0) = .error .format ∧
    checkContainer (magic ++ List.replicate 7 0) = .error .format ∧
    checkContainer (magic ++ List.replicate 20 0) = .error .format ∧
    checkContainer (ContainerHeader.bytes ⟨5, 0x3A016E⟩ ++ [0x9D, 0x5F, 0xFC, 0x66]) = .error .truncated ∧
    checkContainer (ContainerHeader.bytes ⟨0xFFFFFFFF, 0⟩ ++ [0x9D]) = .error .format :=
  ⟨rfl, rfl, rfl, rfl, rfl, rfl, rfl⟩

/-! ### Witnesses: for every obligation with hypotheses, a state and operands that meet them -/

theorem witness_wellFormed_at_the_bound (data : List Byte) (h : data.length = 2 ^ 32 - 1) :
    (Instr.crypt data).wellFormed = true := by
  simp only [Instr.wellFormed, Instr.wellFormedFor, h]
  decide

/-- Also the hypothesis of FramesAreCutExactly; the longest data are in `witness_wellFormed_at_the_bound`. -/
theorem witness_DecodeInvertsEncode : (Instr.crypt [0xAA]).wellFormed = true := by decide

theorem witness_EncodeInvertsDecode : decode [0x03, 0x01, 0x00, 0x00, 0x00, 0xAA] = .ok (.crypt [0xAA]) := by rfl

/-- One frame for each condition of R52, at a boundary where it has one; the sixth cannot occur. -/
theorem witness_FrameIllegal : FrameIllegal [] ∧ FrameIllegal [0x00] ∧ FrameIllegal [0x04] ∧
    FrameIllegal (0x01 :: List.replicate 31 0) ∧ FrameIllegal (0x01 :: List.replicate 33 0) ∧
    FrameIllegal [0x02, 0x00] ∧ FrameIllegal [0x03, 0x00, 0x00, 0x00] ∧
    FrameIllegal [0x03, 0x01, 0x00, 0x00, 0x00] ∧ FrameIllegal [0x03, 0x00, 0x00, 0x00, 0x00, 0xAA] :=
  ⟨.inl rfl, .inr (.inl ⟨_, _, rfl, by decide⟩), .inr (.inl ⟨_, _, rfl, by decide⟩),
    .inr (.inr (.inl ⟨_, rfl, by decide⟩)), .inr (.inr (.inl ⟨_, rfl, by decide⟩)),
    .inr (.inr (.inr (.inl ⟨_, rfl, by decide⟩))), .inr (.inr (.inr (.inr (.inl ⟨_, rfl, by decide⟩)))),
    .inr (.inr (.inr (.inr (.inl ⟨_, rfl, by decide⟩)))), .inr (.inr (.inr (.inr (.inl ⟨_, rfl, by decide⟩))))⟩

/-- The legal boundary frames (95_test_vectors.md 4.6) meet no condition of R52. -/
theorem witness_FrameLegal : ¬ FrameIllegal [0x02] ∧ ¬ FrameIllegal [0x03, 0x00, 0x00, 0x00, 0x00] := by
  have hm : Config.params.maxLen = 2 ^ 32 - 1 := rfl
  constructor <;> simp [FrameIllegal, lenField, hm]

theorem witness_IllegalFramesRaiseIllegalCommand :
    (st .running none [.command [0x04], .reset]).inbox = .command [0x04] :: [.reset] ∧
      (st .running none [.command [0x04], .reset]).fault = none ∧ FrameIllegal [0x04] :=
  ⟨rfl, rfl, witness_FrameIllegal.2.2.1⟩

theorem witness_OperandsAreTheFramesBytes : decode initFrame = .ok (.init (all 0) (all 0)) ∧
    decode [0x03, 0x01, 0x00, 0x00, 0x00, 0xAA] = .ok (.crypt [0xAA]) := ⟨rfl, rfl⟩

theorem witness_StepRunsTheDecodedCommand :
    (st .reset none [.command initFrame]).inbox = .command initFrame :: [] ∧
      decode initFrame = .ok (.init (all 0) (all 0)) := ⟨rfl, rfl⟩

theorem witness_ResetEventAndWaiting :
    (st .running (some .notFresh) [.reset]).inbox = .reset :: [] ∧ State.reset.inbox = [] := ⟨rfl, rfl⟩

theorem witness_OneResponseForEachCommand :
    (∃ t, step (st .fresh none [.command [0x02]]) = .next t) ∧ (∃ t, step (st .fresh none [.reset]) = .next t) ∧
      ∃ t, step (st .fresh none []) = .next t := ⟨⟨_, rfl⟩, ⟨_, rfl⟩, ⟨_, rfl⟩⟩

theorem witness_LatchedFaultAnswersEverything :
    (st .running (some .notFresh) [.command initFrame]).fault = some .notFresh ∧
      (st .running (some .notFresh) [.command initFrame]).inbox = .command initFrame :: [] ∧
      ((st .running (some .notFresh) [.reset]).fault = some .notFresh ∧
        (st .running (some .notFresh) [.reset]).inbox = .reset :: []) ∧
      (∀ rest, (st .running (some .notFresh) [.command initFrame]).inbox ≠ .reset :: rest) ∧
      (∃ t, step (st .running (some .notFresh) [.command initFrame]) = .next t) ∧
      (∀ rest, (st .running (some .notFresh) []).inbox ≠ .reset :: rest) ∧
      ∃ t, step (st .running (some .notFresh) []) = .next t :=
  ⟨rfl, rfl, ⟨rfl, rfl⟩, by simp [st], ⟨_, rfl⟩, by simp [st], ⟨_, rfl⟩⟩

/-- Each of the three codes is latched by some step. -/
theorem witness_FaultsArePrecise :
    next (step (st .fresh none [.command []])) (fun t => decide (t.fault = some .illegalCommand)) ∧
    next (step (st .reset none [.command [0x02]])) (fun t => decide (t.fault = some .notInitialised)) ∧
    next (step (st .running none [.command [0x03, 0x00, 0x00, 0x00, 0x00]]))
      (fun t => decide (t.fault = some .notFresh)) := by decide

/-- The hypotheses on latch and phase of InitResult, ReinitialisationEqualsReset, GenkwResult, CryptResult,
NonIdentityOfFirstByte, ShorterCryptIsABeginning, CryptStateIgnoresDataBytes, NotInitialisedInPhaseReset,
NotFreshInPhaseRunning and the rows of PhaseTransitionTable. -/
theorem witness_phases : ((st .reset none []).fault = none ∧ (st .reset none []).phase = .reset) ∧
    ((st .fresh none []).fault = none ∧ (st .fresh none []).phase = .fresh) ∧
    ((st .running none []).fault = none ∧ (st .running none []).phase = .running) ∧
    (st .running (some .illegalCommand) []).fault = some .illegalCommand := ⟨⟨rfl, rfl⟩, ⟨rfl, rfl⟩, ⟨rfl, rfl⟩, rfl⟩

theorem witness_NotInitialisedInPhaseReset : ∃ t, exec (.init (all 0) (all 0)) (st .reset none []) = .next t :=
  ⟨_, rfl⟩

theorem witness_NotFreshInPhaseRunning : ∃ t, exec .genkw (st .running none []) = .next t := ⟨_, rfl⟩

/-- The four rows of R157. -/
theorem witness_FaultPriority :
    next (step (st .reset (some .notFresh) [.command []])) (fun t => decide (t.responses = [.fault .notFresh])) ∧
    next (step (st .reset none [.command [0xFF]])) (fun t => decide (t.responses = [.fault .illegalCommand])) ∧
    next (step (st .reset none [.command [0x02]])) (fun t => decide (t.responses = [.fault .notInitialised])) ∧
    next (step (st .running none [.command [0x03, 0x00, 0x00, 0x00, 0x00]]))
      (fun t => decide (t.responses = [.fault .notFresh])) := by decide

theorem witness_KeystreamIsDeterministic : State.reset.inbox = [] := rfl

/-- Also the hypothesis of HostNeverSeesAnEngineFault. -/
theorem witness_EngineRoundTrip : ([0x68, 0x69] : List Byte).length ≤ Config.params.maxLen := by decide

theorem witness_CryptKeystreamSkipsFirstWord :
    (st .fresh none []).fault = none ∧ (st .fresh none []).phase = .fresh ∧ (st .fresh none []).inbox = [] :=
  ⟨rfl, rfl, rfl⟩

theorem witness_CryptStateIgnoresDataBytes : ([0x68, 0x69] : List Byte).length = ([0, 0] : List Byte).length := rfl

/-- The cells of `v0` are in range and none is zero: the premise of FeedbackSumOfTheRule, BitReorganisationWiring,
AdvancesShiftTowardsCellZero, CellRangeLaw and CellNonZeroLaw. -/
theorem witness_cells : CellsInRange v0.lfsr ∧ CellsNonZero v0.lfsr := by
  unfold CellsInRange Bit31Clear CellsNonZero
  decide

/-- An initialised engine meets the invariant, and a step from it answers a next state. -/
theorem witness_StepKeepsInvariant : (st .fresh none [.command [0x02]]).Inv ∧
    ∃ t, step (st .fresh none [.command [0x02]]) = .next t := by
  have h : v0 = initialRegs Config.params (all 0) (all 0) := by decide
  exact ⟨⟨h, fun _ => witness_cells, ⟨by simp [st], by simp [st]⟩⟩, _, rfl⟩

/-- INIT changes `KEY` from the value RESET left only where they differ: here it does; GENKW changes the registers. -/
theorem witness_OnlyTheseEventsChangeRegisters :
    next (step (st .fresh none [.command (0x01 :: List.replicate 32 0xFF)]))
      (fun t => decide (t.key ≠ (st .fresh none []).key)) ∧
    next (step (st .fresh none [.command [0x02]])) (fun t => decide (t.phase ≠ .fresh)) := by decide

theorem witness_OnlyResetAndInitLeaveRunning :
    next (step (st .running (some .notFresh) [.reset])) (fun t => decide (t.fault = none)) ∧
    next (step (st .running none [.command initFrame])) (fun t => decide (t.phase ≠ .running)) := by decide

theorem witness_CommandsFrame : (∃ t, exec .genkw (st .fresh none []) = .next t) ∧
    next (exec (.crypt []) (st .reset none [])) (fun t => decide (t.fault = some .notInitialised)) :=
  ⟨⟨_, rfl⟩, by decide⟩

theorem witness_KeyRegistersAreNotRead : (∃ t, exec (.crypt [0]) (st .running none []) = .next t) ∧
    ∃ t, exec .genkw (st .fresh none []) = .next t := ⟨⟨_, rfl⟩, ⟨_, rfl⟩⟩

theorem witness_UnspecifiedRegistersAreNotRead :
    (st .reset none []).phase = .reset ∧ (∃ t, deliverFrame [0x02] (st .reset none []) = .next t) ∧
      ∃ t, deliverFrame initFrame (st .reset none []) = .next t ∧ t.phase ≠ .reset :=
  ⟨rfl, ⟨_, rfl⟩, _, rfl, by decide⟩

/-- The operands of AddmIsEndAroundCarryAddition and MulPow2IsModularMultiplication, at both ends of their range. -/
theorem witness_Bit31Clear : Bit31Clear 0 ∧ Bit31Clear 0x7FFFFFFF ∧ ¬ Bit31Clear 0x80000000 := by
  unfold Bit31Clear
  decide

/-- The amounts of MulPow2IsModularMultiplication and Rotl32MovesBits, at their ends. -/
theorem witness_shift_amounts : (0 < 1 ∧ 1 < 31) ∧ (0 < 30 ∧ 30 < 31) ∧ (0 < 31 ∧ 31 < 32) := by decide

theorem witness_KeystreamByteOfKeyword : Config.params.ksByteOrder = .le ∧
    ({ Config.params with ksByteOrder := .be } : Params).ksByteOrder = .be := ⟨rfl, rfl⟩

theorem witness_CellNonZeroLaw : (∀ i, Config.params.dTable i ≠ 0) ∧ Config.params.feedback ≠ [] := by decide

/-- Also the hypotheses of ExpandedKeyBytes. -/
theorem witness_ContainerRoundTrip : 4 ≤ abcd.length ∧ abcd.length ≤ 64 ∧ 0 < (asciiBytes "hello").length ∧
    (asciiBytes "hello").length ≤ 4084 ∧ isContainer (asciiBytes "hello") = false := by decide

/-- The container of "hello" under the password of 6.2, and room for the text of the source's example (R133). -/
theorem witness_AppendAndPrepend : encrypt 0 password (asciiBytes "hello") =
      .ok (ContainerHeader.bytes ⟨5, 0x3A016E⟩ ++ [0x9D, 0x5F, 0xFC, 0x66, 0x6C]) ∧
    (asciiBytes "hello").length + 1 + (asciiBytes "world").length ≤ 4084 := by
  constructor
  · decide
  · decide

theorem witness_HostErrors : isContainer (asciiBytes "ENC1xyz") = true ∧
    isContainer (List.replicate 4085 0) = false ∧ 4084 < (List.replicate 4085 (0 : Byte)).length ∧
    4 ≤ abcd.length ∧ abcd.length ≤ 64 ∧
    isContainer (asciiBytes "ENC2") = false ∧ (asciiBytes "abc").length < 4 ∧
    64 < (List.replicate 65 (0 : Byte)).length := by
  refine ⟨by decide, ?_, by simp, by decide, by decide, by decide, by decide, by simp⟩
  simp [isContainer, magic]

/-- The sizes of HostErrors at the ends of their ranges: 0 and 4085 and -1 are refused, 1 and 4084 are not. -/
theorem witness_HostErrors_sizes : (0 : Word).toInt < 1 ∧ 4084 < (4085 : Word).toInt ∧ (0xFFFFFFFF : Word).toInt < 1 ∧
    (1 ≤ (1 : Word).toInt ∧ (1 : Word).toInt ≤ 4084) ∧ (1 ≤ (4084 : Word).toInt ∧ (4084 : Word).toInt ≤ 4084) ∧
    ([] : List Byte).length < (1 : Word).toNat ∧ (1 : Word).toNat ≤ ([0x41] : List Byte).length := by decide

/-- The container of "hello" made with another password (95_test_vectors.md 6.3) is an integrity error, and the one made
with this password is not. -/
theorem witness_HostErrors_integrity :
    decrypt 0 abcd (ContainerHeader.bytes ⟨5, 0x3A016E⟩ ++ [0x9D, 0x5F, 0xFC, 0x66, 0x6C]) =
      .error (.error .integrity) ∧
    decrypt 0 abcd (ContainerHeader.bytes ⟨5, 0x3A016E⟩ ++ [0x29, 0x2D, 0xFE, 0xE4, 0x16]) =
      .ok (asciiBytes "hello") := by
  constructor
  · decide
  · decide

/-- An old plaintext of 4084 bytes leaves no room for even the newline. -/
theorem witness_HostErrors_capacity : 4084 < (List.replicate 4084 (0 : Byte)).length + 1 + ([] : List Byte).length := by
  simp

/-- A key file and a file, and no failure of the environment. -/
def files : FileStore := ⟨[("key", abcd), ("file", [0x41, 0x42])]⟩
def fine : FileOutcomes := ⟨.done, .done, .done⟩

/-- How a command ends: 0 succeeded, 1 an IoError, 2 another stop. -/
def ending (e : CommandEnd) : Nat :=
  match e.result with
  | .ok _ => 0
  | .error (.error .io) => 1
  | .error _ => 2

/-- The command succeeds; fails on a read of an existing file; fails at the write, with the file emptied or not; and
fails at the operation, with the file as it was although its write would have emptied it. -/
theorem witness_FailedCommandsSpareFiles :
    ending (encryptFile files "key" "file" fine) = 0 ∧
    (ending (encryptFile files "key" "file" { fine with fileRead := .failed }) = 1 ∧
      (encryptFile files "key" "file" { fine with fileRead := .failed }).store = files) ∧
    (ending (encryptFile files "key" "file" { fine with write := .failedAfterTruncation }) = 1 ∧
      (encryptFile files "key" "file" { fine with write := .failedAfterTruncation }).store.contents "file" = some []) ∧
    (ending (encryptFile files "key" "file" { fine with write := .failedBeforeTruncation }) = 1 ∧
      (encryptFile files "key" "file" { fine with write := .failedBeforeTruncation }).store = files) ∧
    (ending (appendFile files "key" "file" [] { fine with write := .failedAfterTruncation }) = 2 ∧
      (appendFile files "key" "file" [] { fine with write := .failedAfterTruncation }).store = files) := by decide

/-- Each of the four premises of ReadFailures. -/
theorem witness_ReadFailures : ({ fine with keyRead := .failed } : FileOutcomes).keyRead = .failed ∧
    ({ fine with fileRead := .failed } : FileOutcomes).fileRead = .failed ∧
    files.contents "no such key" = none ∧ files.contents "no such file" = none ∧
    files.contents "file" = some [0x41, 0x42] := by decide

/-- A key file of 64 bytes and a newline gives the 64 bytes; one of four bytes and a newline the four (R136). -/
theorem test_readKey : FileStore.readKey ⟨[("k", List.replicate 64 0x61 ++ [0x0A])]⟩ "k" .done =
      .ok (List.replicate 64 0x61) ∧
    FileStore.readKey ⟨[("k", abcd ++ [0x0A])]⟩ "k" .done = .ok abcd ∧
    FileStore.readKey ⟨[("k", [0x61, 0x62, 0x63, 0x0A])]⟩ "k" .done = .error .keyLength ∧
    FileStore.readKey files "key" .failed = .error .io := ⟨rfl, rfl, rfl, rfl⟩

end Sys2Proof.Tests
end

section
/-! SUPPORT. Legal and illegal frames: which bytes the length field reads, the conditions of R52 format by format, what a
decoded frame looks like, and what an illegal frame does to a state without a latched fault. -/

namespace Sys2Proof

/-! ### Frames by opcode, and the operands of format `B` -/

/-- A frame is empty, or its first byte is one of the three opcodes or reserved (R51). -/
theorem frame_cases (frame : List Byte) :
    frame = [] ∨ (∃ operands, frame = opInit :: operands) ∨ (∃ operands, frame = opGenkw :: operands) ∨
    (∃ operands, frame = opCrypt :: operands) ∨
    ∃ op operands, frame = op :: operands ∧ op ≠ opInit ∧ op ≠ opGenkw ∧ op ≠ opCrypt := by
  rcases frame with _ | ⟨op, operands⟩
  · exact .inl rfl
  · by_cases h1 : op = opInit
    · exact .inr (.inl ⟨operands, by rw [h1]⟩)
    by_cases h2 : op = opGenkw
    · exact .inr (.inr (.inl ⟨operands, by rw [h2]⟩))
    by_cases h3 : op = opCrypt
    · exact .inr (.inr (.inr (.inl ⟨operands, by rw [h3]⟩)))
    · exact .inr (.inr (.inr (.inr ⟨op, operands, rfl, h1, h2, h3⟩)))

/-- The operands of format `B` are too short for the length field, or they are its four bytes and then the data. -/
theorem operands_short_or_le32Bytes (operands : List Byte) :
    operands.length < 4 ∨ ∃ w data, operands = le32Bytes w ++ data := by
  rcases operands with _ | ⟨b0, _ | ⟨b1, _ | ⟨b2, _ | ⟨b3, data⟩⟩⟩⟩
  · simp
  · simp
  · simp
  · simp
  · exact .inr ⟨le32 b0 b1 b2 b3, data, by simp [le32Bytes_le32]⟩

namespace Machine

theorem lenField_eq_le32 (frame : List Byte) :
    lenField frame =
      (le32 (frame.getD 1 0) (frame.getD 2 0) (frame.getD 3 0) (frame.getD 4 0)).toNat := by
  rw [le32_toNat, lenField]

/-- `MAX_LEN` is the largest value of the length field (R52, R110). -/
theorem lenField_le_maxLen (frame : List Byte) : lenField frame ≤ Config.params.maxLen := by
  rw [lenField_eq_le32]
  exact Nat.le_sub_one_of_lt (BitVec.isLt _)

@[simp] theorem lenField_le32Bytes (op : Byte) (w : Word) (data : List Byte) :
    lenField (op :: (le32Bytes w ++ data)) = w.toNat := by
  rw [lenField_eq_le32]
  exact congrArg BitVec.toNat (le32_le32Bytes w)

/-! ### The conditions of R52, format by format -/

theorem frameIllegal_nil : FrameIllegal [] := .inl rfl

theorem frameIllegal_init (operands : List Byte) :
    FrameIllegal (opInit :: operands) ↔ operands.length ≠ 32 := by
  simp [FrameIllegal, opInit]

theorem frameIllegal_genkw (operands : List Byte) :
    FrameIllegal (opGenkw :: operands) ↔ operands.length ≠ 0 := by
  simp [FrameIllegal, opGenkw]

/-- The condition on `MAX_LEN` adds nothing. -/
theorem frameIllegal_crypt (operands : List Byte) :
    FrameIllegal (opCrypt :: operands) ↔
      operands.length < 4 ∨ operands.length ≠ 4 + lenField (opCrypt :: operands) := by
  have hmax := lenField_le_maxLen (opCrypt :: operands)
  simp [FrameIllegal, opCrypt] at hmax ⊢
  omega

theorem frameIllegal_reserved {op : Byte} (operands : List Byte) (h1 : op ≠ opInit) (h2 : op ≠ opGenkw)
    (h3 : op ≠ opCrypt) : FrameIllegal (op :: operands) :=
  .inr (.inl ⟨op, operands, rfl, h1, h2, h3⟩)

/-! ### The decoder against R52 -/

theorem decode_crypt_le32Bytes (w : Word) (data : List Byte) :
    decode (opCrypt :: (le32Bytes w ++ data)) =
      if data.length = w.toNat then .ok (.crypt data) else .error (.frameLength (5 + w.toNat) (5 + data.length)) := by
  have hmax : ¬ Config.params.maxLen < w.toNat := by
    simpa using lenField_le_maxLen (opCrypt :: (le32Bytes w ++ data))
  rw [decode, decodeFor_crypt, decodeCrypt_le32, if_neg hmax, ite_not]

theorem decode_crypt_short {operands : List Byte} (h : operands.length < 4) :
    decode (opCrypt :: operands) = .error (.lenFieldMissing (1 + operands.length)) := by
  rw [decode, decodeFor_crypt, decodeCrypt_short _ h]

/-- The frames the decoder accepts, one case a format, with the command each carries (R46 to R48, R50). -/
theorem decode_ok_cases {frame : List Byte} {i : Instr} (h : decode frame = .ok i) :
    (∃ operands, frame = opInit :: operands ∧ operands.length = 32 ∧
      i = .init (operandBlock operands 0) (operandBlock operands 16)) ∨
    (frame = [opGenkw] ∧ i = .genkw) ∨
    ∃ w data, frame = opCrypt :: (le32Bytes w ++ data) ∧ data.length = w.toNat ∧ i = .crypt data := by
  obtain rfl | ⟨operands, rfl⟩ | ⟨operands, rfl⟩ | ⟨operands, rfl⟩ | ⟨op, operands, rfl, h1, h2, h3⟩ := frame_cases frame
  · cases h
  · rw [decode, decodeFor_init] at h
    split at h
    · next hl => exact .inl ⟨operands, rfl, hl, by simpa using h.symm⟩
    · cases h
  · rw [decode, decodeFor_genkw] at h
    split at h
    · next hl => exact .inr (.inl ⟨by simpa using hl, by simpa using h.symm⟩)
    · cases h
  · obtain hs | ⟨w, data, rfl⟩ := operands_short_or_le32Bytes operands
    · rw [decode_crypt_short hs] at h
      cases h
    · rw [decode_crypt_le32Bytes] at h
      split at h
      · next hl => exact .inr (.inr ⟨w, data, rfl, hl, by simpa using h.symm⟩)
      · cases h
  · rw [decode, decodeFor_reserved _ _ h1 h2 h3] at h
    cases h

/-- The decoder rejects exactly the frames R52 lists. -/
theorem frameIllegal_iff_decode_error (frame : List Byte) : FrameIllegal frame ↔ ∃ e, decode frame = .error e := by
  obtain rfl | ⟨operands, rfl⟩ | ⟨operands, rfl⟩ | ⟨operands, rfl⟩ | ⟨op, operands, rfl, h1, h2, h3⟩ := frame_cases frame
  · exact iff_of_true frameIllegal_nil ⟨_, rfl⟩
  · rw [frameIllegal_init, decode, decodeFor_init]
    split <;> simp_all
  · rw [frameIllegal_genkw, decode, decodeFor_genkw]
    split <;> simp_all
  · rw [frameIllegal_crypt]
    obtain hs | ⟨w, data, rfl⟩ := operands_short_or_le32Bytes operands
    · exact iff_of_true (.inl hs) ⟨_, decode_crypt_short hs⟩
    · rw [decode_crypt_le32Bytes]
      split <;> simp_all
  · exact iff_of_true (frameIllegal_reserved operands h1 h2 h3) ⟨_, decodeFor_reserved _ _ h1 h2 h3⟩

theorem decode_ok_of_not_frameIllegal {frame : List Byte} (h : ¬ FrameIllegal frame) : ∃ i, decode frame = .ok i := by
  cases hd : decode frame with
  | error e => exact absurd ((frameIllegal_iff_decode_error frame).2 ⟨e, hd⟩) h
  | ok i => exact ⟨i, rfl⟩

/-! ### What an illegal frame does with no fault latched (R152, R153) -/

theorem raiseFault_unlatched {s : State} (h : s.fault = none) (code : FaultCode) :
    raiseFault code s = { s with fault := some code, responses := s.responses ++ [.fault code] } := by
  simp [raiseFault, respond, h]

theorem deliverFrame_illegal {s : State} (h : s.fault = none) {frame : List Byte} (hf : FrameIllegal frame) :
    deliverFrame frame s = .next { s with
      fault := some .illegalCommand, responses := s.responses ++ [.fault .illegalCommand] } := by
  obtain ⟨e, he⟩ := (frameIllegal_iff_decode_error frame).1 hf
  rw [deliverFrame_error he, illegalFrame, unlessLatched_none h, raiseFault_unlatched h]

end Machine

/-! ### Which frame bytes the operands are (R50) -/

theorem getElem?_eq_operandBlock {operands : List Byte} {start : Nat} (h : start + 16 ≤ operands.length) (i : Fin 16) :
    operands[start + i.val]? = some (operandBlock operands start)[i] := by
  have hi : start + i.val < operands.length := by omega
  simp [operandBlock, hi]

theorem getElem?_cryptFrame (w : Word) (data : List Byte) (a : Nat) :
    (opCrypt :: (le32Bytes w ++ data))[5 + a]? = data[a]? := by
  rw [Nat.add_comm]
  rfl

end Sys2Proof

open Sys2Proof Sys2Proof.Machine

/-- Settles O3: the decoder rejects exactly the frames of R52, and a rejected frame raises ILLEGAL_COMMAND. -/
theorem illegalFramesRaiseIllegalCommand : Obligations.IllegalFramesRaiseIllegalCommand := by
  refine ⟨fun frame rest s hin hf hill => ?_, fun _ => decode_ok_of_not_frameIllegal, lenField_le_maxLen⟩
  rw [step_event hin]
  exact deliverFrame_illegal (s := { s with inbox := rest }) hf hill

/-- Settles O4, from the shape of the frames the decoder accepts. -/
theorem operandsAreTheFramesBytes : Obligations.OperandsAreTheFramesBytes := by
  constructor
  · intro frame key iv h i
    obtain ⟨operands, rfl, hlen, hi⟩ | ⟨-, hi⟩ | ⟨_, _, -, -, hi⟩ := decode_ok_cases h
    · obtain ⟨rfl, rfl⟩ := Instr.init.inj hi
      have hkey := getElem?_eq_operandBlock (operands := operands) (start := 0) (by omega) i
      have hiv := getElem?_eq_operandBlock (operands := operands) (start := 16) (by omega) i
      constructor
      · rw [← hkey, Nat.add_comm 1, List.getElem?_cons_succ, Nat.zero_add]
      · rw [← hiv, show 17 + i.val = 16 + i.val + 1 by omega, List.getElem?_cons_succ]
    · cases hi
    · cases hi
  · intro frame data h
    obtain ⟨_, -, -, hi⟩ | ⟨-, hi⟩ | ⟨w, _, rfl, hlen, hi⟩ := decode_ok_cases h
    · cases hi
    · cases hi
    · cases hi
      exact ⟨by rw [hlen, lenField_le32Bytes], fun a _ => getElem?_cryptFrame w data a⟩

end

section
/-! SUPPORT. The primitives over words: the laws of `ADDM`, both rotations bit by bit, the linearity of `L1` and `L2`,
the lanes of a word, and how a table is seen to be a permutation. -/

namespace Sys2Proof.Machine

/-! ### `ADDM` (R61) -/

theorem bit31Clear_zero : Bit31Clear 0 := by simp [Bit31Clear]

theorem bit31Clear_modulus : Bit31Clear 0x7FFFFFFF := by simp [Bit31Clear]

theorem addm_toNat_eq_ite {a b : Word} (ha : Bit31Clear a) (hb : Bit31Clear b) :
    (addm a b).toNat =
      if a.toNat + b.toNat ≤ 0x7FFFFFFF then a.toNat + b.toNat else a.toNat + b.toNat - 0x7FFFFFFF := by
  have h := addm_toNat ha hb
  unfold Bit31Clear at ha hb
  split <;> omega

theorem addm_comm (a b : Word) : addm a b = addm b a := by
  rw [addm, BitVec.add_comm a b, ← addm]

theorem addm_zero {a : Word} (ha : Bit31Clear a) : addm a 0 = a := by
  have h : (addm a 0).toNat = (a.toNat + 0) % 2 ^ 31 + (a.toNat + 0) / 2 ^ 31 := addm_toNat ha bit31Clear_zero
  unfold Bit31Clear at ha
  apply BitVec.eq_of_toNat_eq
  omega

theorem modulus_addm {b : Word} (hb : Bit31Clear b) (h0 : b ≠ 0) : addm 0x7FFFFFFF b = b := by
  have h : (addm 0x7FFFFFFF b).toNat = (0x7FFFFFFF + b.toNat) % 2 ^ 31 + (0x7FFFFFFF + b.toNat) / 2 ^ 31 :=
    addm_toNat bit31Clear_modulus hb
  have hpos : b.toNat ≠ 0 := fun hz => h0 (BitVec.eq_of_toNat_eq hz)
  unfold Bit31Clear at hb
  apply BitVec.eq_of_toNat_eq
  omega

theorem addm_eq_zero_iff {a b : Word} (ha : Bit31Clear a) (hb : Bit31Clear b) :
    addm a b = 0 ↔ a = 0 ∧ b = 0 := by
  constructor
  · intro h
    constructor
    · by_contra h0
      exact addm_ne_zero ha hb h0 h
    · by_contra h0
      exact addm_ne_zero hb ha h0 (addm_comm a b ▸ h)
  · rintro ⟨rfl, rfl⟩
    exact addm_zero ha

/-- Both sides are the sum of the three, less the modulus once for each time the sum passes it. -/
theorem addm_assoc {a b c : Word} (ha : Bit31Clear a) (hb : Bit31Clear b) (hc : Bit31Clear c) :
    addm (addm a b) c = addm a (addm b c) := by
  apply BitVec.eq_of_toNat_eq
  rw [addm_toNat_eq_ite (addm_inRange ha hb) hc, addm_toNat_eq_ite ha hb, addm_toNat_eq_ite ha (addm_inRange hb hc),
    addm_toNat_eq_ite hb hc]
  unfold Bit31Clear at ha hb hc
  split_ifs <;> omega

/-! ### The two rotations (R62, R63) -/

/-- The rotation of the `n` low bits of a word that has no others. -/
theorem getLsbD_shift_or_shift {x : Word} {n k i : Nat} (hn : n ≤ 32) (hx : x.toNat < 2 ^ n) (hk : k < n)
    (hi : i < n) : (x <<< k ||| x >>> (n - k)).getLsbD ((i + k) % n) = x.getLsbD i := by
  rw [BitVec.getLsbD_or, BitVec.getLsbD_shiftLeft, BitVec.getLsbD_ushiftRight]
  by_cases h : i + k < n
  · have hover : x.getLsbD (n - k + (i + k)) = false :=
      Nat.testBit_lt_two_pow (lt_of_lt_of_le hx (Nat.pow_le_pow_right (by decide) (by omega)))
    have h32 : i + k < 32 := by omega
    rw [Nat.mod_eq_of_lt h, hover]
    simp [h32]
  · have hmod : (i + k) % n = i + k - n := by
      rw [Nat.mod_eq_sub_mod (by omega), Nat.mod_eq_of_lt (by omega)]
    have hlow : i + k - n < k := by omega
    have hback : n - k + (i + k - n) = i := by omega
    rw [hmod, hback]
    simp [hlow]

theorem getLsbD_rotl32 (v : Word) {k i : Nat} (hk : k < 32) (hi : i < 32) :
    (rotl32 v k).getLsbD ((i + k) % 32) = v.getLsbD i :=
  getLsbD_shift_or_shift le_rfl v.isLt hk hi

theorem getLsbD_and_modulus (w : Word) {j : Nat} (hj : j < 31) :
    (w &&& Config.modulus).getLsbD j = w.getLsbD j := by
  rw [← BitVec.testBit_toNat, and_modulus_toNat, Nat.testBit_mod_two_pow, BitVec.testBit_toNat]
  simp [hj]

theorem getLsbD_mulPow2 {x : Word} {k i : Nat} (hx : Bit31Clear x) (hk : k < 31) (hi : i < 31) :
    (mulPow2 x k).getLsbD ((i + k) % 31) = x.getLsbD i := by
  rw [mulPow2, getLsbD_and_modulus _ (Nat.mod_lt _ (by decide))]
  exact getLsbD_shift_or_shift (by decide) hx hk hi

/-- The product with `2 ^ k` is the rotated word and the bits that went round, once for each multiple of the modulus. -/
theorem mulPow2_modEq {x : Word} {k : Nat} (hx : Bit31Clear x) (hk : k < 31) :
    (mulPow2 x k).toNat ≡ x.toNat * 2 ^ k [MOD 2 ^ 31 - 1] := by
  have hpow : 2 ^ (31 - k) * 2 ^ k = 2 ^ 31 := by rw [← Nat.pow_add, Nat.sub_add_cancel hk.le]
  have hfold : x.toNat * 2 ^ k = (mulPow2 x k).toNat + (2 ^ 31 - 1) * (x.toNat / 2 ^ (31 - k)) :=
    calc x.toNat * 2 ^ k
        = (2 ^ (31 - k) * (x.toNat / 2 ^ (31 - k)) + x.toNat % 2 ^ (31 - k)) * 2 ^ k := by rw [Nat.div_add_mod]
      _ = 2 ^ 31 * (x.toNat / 2 ^ (31 - k)) + x.toNat % 2 ^ (31 - k) * 2 ^ k := by rw [← hpow]; ring
      _ = (mulPow2 x k).toNat + (2 ^ 31 - 1) * (x.toNat / 2 ^ (31 - k)) := by rw [mulPow2_toNat hx hk]; omega
  rw [hfold]
  exact (Nat.add_mul_mod_self_left _ _ _).symm

theorem zero_mulPow2 (k : Nat) : mulPow2 0 k = 0 := by simp [mulPow2]

/-- The rotated modulus is in range, not 0 and a multiple of the modulus. -/
theorem modulus_mulPow2 {k : Nat} (hk : k < 31) : mulPow2 0x7FFFFFFF k = 0x7FFFFFFF := by
  have hdvd : (mulPow2 0x7FFFFFFF k).toNat % (2 ^ 31 - 1) = 0 :=
    Eq.trans (mulPow2_modEq bit31Clear_modulus hk) (Nat.mul_mod_right _ _)
  have hrange := mulPow2_inRange 0x7FFFFFFF k
  have h0 : (mulPow2 0x7FFFFFFF k).toNat ≠ 0 := fun hz =>
    mulPow2_ne_zero bit31Clear_modulus hk (by decide) (BitVec.eq_of_toNat_eq hz)
  unfold Bit31Clear at hrange
  apply BitVec.eq_of_toNat_eq
  change _ = 2 ^ 31 - 1
  omega

/-! ### Linearity over XOR (R64, R65) -/

/-- The two shifted parts of a rotation have no bit in common, so that their OR is linear too. -/
theorem rotl32_xor (a b : Word) (k : Nat) : rotl32 (a ^^^ b) k = rotl32 a k ^^^ rotl32 b k := by
  apply BitVec.eq_of_getLsbD_eq
  intro j hj
  by_cases h : j < k
  · simp [rotl32, h]
  · have hover : 32 ≤ 32 - k + j := by omega
    simp [rotl32, h, hj, BitVec.getLsbD_of_ge _ _ hover]

theorem foldl_xor_rotl32_xor (amounts : List Nat) (a b u v : Word) :
    amounts.foldl (fun acc k => acc ^^^ rotl32 (a ^^^ b) k) (u ^^^ v) =
      amounts.foldl (fun acc k => acc ^^^ rotl32 a k) u ^^^ amounts.foldl (fun acc k => acc ^^^ rotl32 b k) v := by
  induction amounts generalizing u v with
  | nil => rfl
  | cons k ks ih =>
    have hterm : u ^^^ v ^^^ rotl32 (a ^^^ b) k = (u ^^^ rotl32 a k) ^^^ (v ^^^ rotl32 b k) := by
      rw [rotl32_xor]
      ac_rfl
    rw [List.foldl_cons, hterm, ih, List.foldl_cons, List.foldl_cons]

theorem xorRotations_xor (amounts : List Nat) (a b : Word) :
    xorRotations amounts (a ^^^ b) = xorRotations amounts a ^^^ xorRotations amounts b :=
  foldl_xor_rotl32_xor amounts a b a b

/-! ### Lanes of a word (R66) -/

theorem setWidth_and_0xFF (w : Word) : (w &&& 0xFF).setWidth 8 = w.setWidth 8 := by
  rw [BitVec.setWidth_and]
  exact BitVec.and_allOnes

theorem setWidth_shift_and_0xFF (x : Word) (n : Nat) : ((x >>> n) &&& 0xFF).setWidth 8 = x.extractLsb' n 8 := by
  rw [setWidth_and_0xFF, BitVec.setWidth_ushiftRight_eq_extractLsb]

theorem append_lanes (a b c d : Byte) :
    (a ++ b ++ c ++ d : Word) =
      (a.setWidth 32 <<< 24) ||| (b.setWidth 32 <<< 16) ||| (c.setWidth 32 <<< 8) ||| d.setWidth 32 :=
  (BitVec.setWidth_eq _).symm.trans BitVec.setWidth_append_append_append_eq_shiftLeft_setWidth_or

/-! ### Permutations of the bytes (R74) -/

/-- The values of `f` at the `2 ^ n` bytes from `a`, as the bits of a number. -/
def valueSet (f : Byte → Byte) : Nat → Byte → Nat
  | 0, a => 2 ^ (f a).toNat
  | n + 1, a => valueSet f n a ||| valueSet f n (a + BitVec.ofNat 8 (2 ^ n))

theorem exists_of_testBit_valueSet {f : Byte → Byte} {n b : Nat} {a : Byte} (h : (valueSet f n a).testBit b = true) :
    ∃ x, (f x).toNat = b := by
  induction n generalizing a with
  | zero => exact ⟨a, by simpa [valueSet, Nat.testBit_two_pow] using h⟩
  | succ n ih =>
    rw [valueSet, Nat.testBit_or, Bool.or_eq_true] at h
    exact h.elim ih ih

theorem bijective_of_valueSet {f : Byte → Byte} (h : valueSet f 8 0 = 2 ^ 256 - 1) : Function.Bijective f := by
  rw [← Finite.surjective_iff_bijective]
  intro b
  have hb : (valueSet f 8 0).testBit b.toNat = true := by
    rw [h, Nat.testBit_two_pow_sub_one]
    exact decide_eq_true b.isLt
  obtain ⟨x, hx⟩ := exists_of_testBit_valueSet hb
  exact ⟨x, BitVec.eq_of_toNat_eq hx⟩

theorem s0Table_bijective : Function.Bijective Config.params.s0Table := bijective_of_valueSet (by decide)

theorem s1Table_bijective : Function.Bijective Config.params.s1Table := bijective_of_valueSet (by decide)

end Sys2Proof.Machine

open Sys2Proof Sys2Proof.Machine

/-- Settles O38: the closed form of `ADDM`, from which its other laws follow. -/
theorem addmIsEndAroundCarryAddition : Obligations.AddmIsEndAroundCarryAddition :=
  ⟨fun a b ha hb => ⟨addm_toNat_eq_ite ha hb, addm_inRange ha hb, addm_eq_zero_iff ha hb, addm_zero ha,
    modulus_addm hb, addm_comm a b⟩, fun _ _ _ => addm_assoc⟩

/-- Settles O39: `MULPOW2` as a rotation of 31 bits and as a product. -/
theorem mulPow2IsModularMultiplication : Obligations.MulPow2IsModularMultiplication := fun x k hx _ hk =>
  ⟨mulPow2_modEq hx hk, fun _ => getLsbD_mulPow2 hx hk, zero_mulPow2 k, modulus_mulPow2 hk, mulPow2_ne_zero hx hk,
    mulPow2_inRange x k⟩

/-- Settles O40: the same law of shifts as for the 31 bits of `MULPOW2`. -/
theorem rotl32MovesBits : Obligations.Rotl32MovesBits := fun v _ _ _ => getLsbD_rotl32 v

/-- Settles O41: both transforms are `xorRotations`, which is linear for every list of amounts. -/
theorem diffusionTransforms : Obligations.DiffusionTransforms :=
  ⟨fun _ => rfl, fun _ => rfl, fun a b => ⟨xorRotations_xor _ a b, xorRotations_xor _ a b⟩, by decide⟩

/-- Settles O42: the four lanes one by one. -/
theorem sboxLanes : Obligations.SboxLanes := by
  intro x
  rw [BitVec.setWidth_ushiftRight_eq_extractLsb, setWidth_shift_and_0xFF, setWidth_shift_and_0xFF, setWidth_and_0xFF,
    ← append_lanes]
  rfl

/-- Settles O43: that a table is a permutation is read off the set of its values, the rest off the entries. -/
theorem tableProperties : Obligations.TableProperties :=
  ⟨s0Table_bijective, s1Table_bijective, by decide, by decide, by decide⟩

end

section
/-! SUPPORT. The shift register: the fields of a loaded cell, and the feedback sum over any list of terms, as a residue
and as to when it is 0. -/

namespace Sys2Proof.Machine

/-! ### The load (R80) -/

/-- A field of a word, read off its value split into what stands above the field, the field, and what stands below. -/
theorem extractLsb'_eq_of_toNat_eq {x : Word} {start len above below : Nat} {field : BitVec len}
    (h : x.toNat = 2 ^ start * (2 ^ len * above + field.toNat) + below) (hb : below < 2 ^ start) :
    x.extractLsb' start len = field := by
  apply BitVec.eq_of_toNat_eq
  rw [BitVec.extractLsb'_toNat, Nat.shiftRight_eq_div_pow, h, Nat.mul_add_div (by positivity), Nat.div_eq_of_lt hb,
    Nat.add_zero, Nat.mul_add_mod, Nat.mod_eq_of_lt field.isLt]

/-- The fields of R80 for any parameters; a narrower `D_TABLE` entry stands in its 15 bits with zeros above it. -/
theorem lfsrLoad_fields (c : Params) (key iv : Block) (i : Fin 16) :
    (lfsrLoad c key iv)[i].extractLsb' 31 1 = 0 ∧
    (lfsrLoad c key iv)[i].extractLsb' 23 8 = key[i] ∧
    (lfsrLoad c key iv)[i].extractLsb' 8 15 = (c.dTable i).setWidth 15 ∧
    (lfsrLoad c key iv)[i].extractLsb' 0 8 = iv[i] := by
  have hcell := lfsrLoad_toNat c key iv i
  have hd : ((c.dTable i).setWidth 15).toNat = (c.dTable i).toNat := BitVec.toNat_setWidth_of_le c.dWidth_le
  have hd15 : ((c.dTable i).setWidth 15).toNat < 2 ^ 15 := ((c.dTable i).setWidth 15).isLt
  have hiv : iv[i].toNat < 2 ^ 8 := iv[i].isLt
  refine ⟨?_, ?_, ?_, ?_⟩
  · exact extractLsb'_eq_of_toNat_eq (above := 0) (field := 0) (below := (lfsrLoad c key iv)[i].toNat)
      (by simp) (lfsrLoad_inRange c key iv i)
  · exact extractLsb'_eq_of_toNat_eq (above := 0) (below := (c.dTable i).toNat * 2 ^ 8 + iv[i].toNat)
      (by omega) (by omega)
  · exact extractLsb'_eq_of_toNat_eq (above := key[i].toNat) (below := iv[i].toNat) (by omega) hiv
  · exact extractLsb'_eq_of_toNat_eq (above := key[i].toNat * 2 ^ 15 + (c.dTable i).toNat) (below := 0)
      (by omega) (by decide)

/-! ### The terms of the feedback sum (R82) -/

theorem addm_modEq {a b : Word} (ha : Bit31Clear a) (hb : Bit31Clear b) :
    (addm a b).toNat ≡ a.toNat + b.toNat [MOD 2 ^ 31 - 1] := by
  have h := addm_toNat ha hb
  unfold Nat.ModEq
  omega

theorem mulPow2_eq_zero_iff {x : Word} {k : Nat} (hx : Bit31Clear x) (hk : k < 31) : mulPow2 x k = 0 ↔ x = 0 := by
  constructor
  · exact fun h => by_contra fun h0 => mulPow2_ne_zero hx hk h0 h
  · rintro rfl
    exact zero_mulPow2 k

variable {cells : Cells} (h : CellsInRange cells)
include h

theorem feedbackTerm_modEq {t : FeedbackTerm} (ht : t.shift < 31) :
    (feedbackTerm cells t).toNat ≡ cells[t.cell].toNat * 2 ^ t.shift [MOD 2 ^ 31 - 1] := by
  unfold feedbackTerm
  split
  · next h0 => simp [h0, Nat.ModEq.refl]
  · exact mulPow2_modEq (h t.cell) ht

theorem feedbackTerm_eq_zero_iff {t : FeedbackTerm} (ht : t.shift < 31) :
    feedbackTerm cells t = 0 ↔ cells[t.cell] = 0 := by
  unfold feedbackTerm
  split
  · rfl
  · exact mulPow2_eq_zero_iff (h t.cell) ht

/-! ### The accumulation (R82) -/

theorem foldl_addm_modEq (ts : List FeedbackTerm) (hts : ∀ t ∈ ts, t.shift < 31) {f : Word} (hf : Bit31Clear f) :
    (ts.foldl (fun f t => addm f (feedbackTerm cells t)) f).toNat ≡
      f.toNat + (ts.map fun t => cells[t.cell].toNat * 2 ^ t.shift).sum [MOD 2 ^ 31 - 1] := by
  induction ts generalizing f with
  | nil => exact Nat.ModEq.refl _
  | cons t ts ih =>
    obtain ⟨ht, hts⟩ := List.forall_mem_cons.mp hts
    have hterm := feedbackTerm_inRange h t
    have hstep := (addm_modEq hf hterm).trans ((feedbackTerm_modEq h ht).add_left _)
    rw [List.map_cons, List.sum_cons, ← Nat.add_assoc]
    exact (ih hts (addm_inRange hf hterm)).trans (hstep.add_right _)

theorem foldl_addm_eq_zero_iff (ts : List FeedbackTerm) (hts : ∀ t ∈ ts, t.shift < 31) {f : Word}
    (hf : Bit31Clear f) :
    ts.foldl (fun f t => addm f (feedbackTerm cells t)) f = 0 ↔ f = 0 ∧ ∀ t ∈ ts, cells[t.cell] = 0 := by
  induction ts generalizing f with
  | nil => simp
  | cons t ts ih =>
    obtain ⟨ht, hts⟩ := List.forall_mem_cons.mp hts
    have hterm := feedbackTerm_inRange h t
    rw [List.foldl_cons, ih hts (addm_inRange hf hterm), addm_eq_zero_iff hf hterm, feedbackTerm_eq_zero_iff h ht,
      List.forall_mem_cons, and_assoc]

theorem feedbackSum_modEq (c : Params) :
    (feedbackSum c cells).toNat ≡
      (c.feedback.map fun t => cells[t.cell].toNat * 2 ^ t.shift).sum [MOD 2 ^ 31 - 1] := by
  have hshift := c.feedback_shift
  unfold feedbackSum
  split
  · next heq => simp [heq, Nat.ModEq.refl]
  · next t ts heq =>
    rw [heq] at hshift ⊢
    obtain ⟨ht, hts⟩ := List.forall_mem_cons.mp hshift
    exact (foldl_addm_modEq h ts hts (feedbackTerm_inRange h t)).trans ((feedbackTerm_modEq h ht).add_right _)

theorem feedbackSum_eq_zero_iff (c : Params) :
    feedbackSum c cells = 0 ↔ ∀ t ∈ c.feedback, cells[t.cell] = 0 := by
  have hshift := c.feedback_shift
  unfold feedbackSum
  split
  · next heq => simp [heq]
  · next t ts heq =>
    rw [heq] at hshift ⊢
    obtain ⟨ht, hts⟩ := List.forall_mem_cons.mp hshift
    rw [foldl_addm_eq_zero_iff h ts hts (feedbackTerm_inRange h t), feedbackTerm_eq_zero_iff h ht,
      List.forall_mem_cons]

omit h

/-! ### The six terms of the machine's parameters (R82) -/

theorem feedbackSum_params (l : Cells) :
    feedbackSum Config.params l =
      addm (addm (addm (addm (addm l[0] (mulPow2 l[0] 8)) (mulPow2 l[4] 20)) (mulPow2 l[10] 21)) (mulPow2 l[13] 17))
        (mulPow2 l[15] 15) := rfl

theorem feedback_map_sum (f : FeedbackTerm → Nat) :
    (Config.params.feedback.map f).sum =
      f ⟨0, 0⟩ + (f ⟨0, 8⟩ + (f ⟨4, 20⟩ + (f ⟨10, 21⟩ + (f ⟨13, 17⟩ + f ⟨15, 15⟩)))) := rfl

/-- The cells are rewritten one by one: left to `simp` or `change`, the kernel compares the products by unfolding them
in unary. -/
theorem feedback_weighted_sum (l : Cells) :
    (Config.params.feedback.map fun t => l[t.cell].toNat * 2 ^ t.shift).sum =
      2 ^ 15 * l[15].toNat + 2 ^ 17 * l[13].toNat + 2 ^ 21 * l[10].toNat + 2 ^ 20 * l[4].toNat +
        (1 + 2 ^ 8) * l[0].toNat := by
  have h0 : l[(0 : Fin 16)] = l[0] := rfl
  have h4 : l[(4 : Fin 16)] = l[4] := rfl
  have h10 : l[(10 : Fin 16)] = l[10] := rfl
  have h13 : l[(13 : Fin 16)] = l[13] := rfl
  have h15 : l[(15 : Fin 16)] = l[15] := rfl
  rw [feedback_map_sum, h0, h4, h10, h13, h15]
  ring

end Sys2Proof.Machine

open Sys2Proof Sys2Proof.Machine

/-- Settles O21: the fields of a loaded cell for any parameters, at a table whose entries fill their 15 bits. -/
theorem loadedCellLayout : Obligations.LoadedCellLayout := by
  intro key iv i
  obtain ⟨hbit31, hkey, hd, hiv⟩ := lfsrLoad_fields Config.params key iv i
  exact ⟨hbit31, hkey, hd.trans (BitVec.setWidth_eq _), hiv⟩

/-- Settles O45: the laws of the feedback sum over any list of terms, at the six terms of the rule. -/
theorem feedbackSumOfTheRule : Obligations.FeedbackSumOfTheRule := by
  intro l hl
  refine ⟨feedbackSum_params l, ?residue, feedbackSum_inRange _ hl, ?zero⟩
  case residue =>
    rw [← feedback_weighted_sum]
    exact feedbackSum_modEq hl Config.params
  case zero =>
    rw [feedbackSum_eq_zero_iff hl]
    simp [Config.params, Config.zucFeedback]

/-- Settles O46: both advances are one shift, which differs only in the word that enters. -/
theorem advancesShiftTowardsCellZero : Obligations.AdvancesShiftTowardsCellZero := by
  intro c l u
  refine ⟨fun i hi => ?_, shiftIn_last _ _, shiftIn_last _ _, fun hl => ?_⟩
  · exact ⟨shiftIn_lower l _ (by omega), shiftIn_lower l _ (by omega)⟩
  · rw [advanceInit, addm_zero (feedbackSum_inRange c hl), ← advanceWork]

/-- Settles O47, from the range laws of the load, of both advances and of `SHR1`. -/
theorem cellRangeLaw : Obligations.CellRangeLaw := fun c =>
  ⟨lfsrLoad_inRange c, fun _ hl => advanceWork_inRange c hl, fun _ w hl => advanceInit_inRange c hl (shr1_inRange w)⟩

end

section
/-! SUPPORT. The bit reorganisation, the half swap and the rounds: two 16-bit halves side by side in the shift form of
their rules, for any cells and words. -/

namespace Sys2Proof.Machine

/-! ### 16-bit fields and 16-bit masks -/

theorem append_halves (a b : BitVec 16) : (a ++ b : Word) = a.setWidth 32 <<< 16 ||| b.setWidth 32 :=
  (BitVec.setWidth_eq _).symm.trans BitVec.setWidth_append_eq_shiftLeft_setWidth_or

theorem and_0xFFFF_toNat (x : Word) : (x &&& 0xFFFF).toNat = x.toNat % 2 ^ 16 := by
  rw [BitVec.toNat_and]
  exact Nat.and_two_pow_sub_one_eq_mod _ 16

theorem setWidth_extractLsb'_16 (x : Word) (n : Nat) : (x.extractLsb' n 16).setWidth 32 = (x >>> n) &&& 0xFFFF := by
  apply BitVec.eq_of_toNat_eq
  rw [BitVec.toNat_setWidth_of_le (by decide), BitVec.extractLsb'_toNat, and_0xFFFF_toNat, BitVec.toNat_ushiftRight]

theorem shiftRight_and_0xFFFF {x : Word} {n : Nat} (h : x.toNat < 2 ^ n * 2 ^ 16) : (x >>> n) &&& 0xFFFF = x >>> n := by
  apply BitVec.eq_of_toNat_eq
  rw [and_0xFFFF_toNat, BitVec.toNat_ushiftRight, Nat.shiftRight_eq_div_pow]
  exact Nat.mod_eq_of_lt (Nat.div_lt_of_lt_mul h)

/-- The mask of the high half of a cell, moved up by 16 from bit 0 or by 1 from where the half stands (R90). -/
theorem shiftRight_and_0xFFFF_shiftLeft (x : Word) : ((x >>> 15) &&& 0xFFFF) <<< 16 = (x &&& 0x7FFF8000) <<< 1 := by
  have hmask : BitVec.allOnes 32 <<< 15 &&& (0xFFFF : Word) <<< 15 = 0x7FFF8000 := by decide
  rw [show 16 = 15 + 1 from rfl, BitVec.shiftLeft_add, BitVec.shiftLeft_and_distrib, BitVec.shiftLeft_ushiftRight,
    BitVec.and_assoc, hmask]

theorem and_0xFFFF_shiftLeft (x : Word) : (x &&& 0xFFFF) <<< 16 = x <<< 16 := by
  have hmask : (0xFFFF : Word) <<< 16 = BitVec.allOnes 32 <<< 16 := by decide
  rw [BitVec.shiftLeft_and_distrib, hmask, ← BitVec.shiftLeft_and_distrib, BitVec.and_allOnes]

/-! ### Cell halves (R90) -/

theorem setWidth_cellHalf_low (s : Word) : (cellHalf s .low).setWidth 32 = s &&& 0xFFFF := by
  rw [cellHalf, setWidth_extractLsb'_16, BitVec.ushiftRight_zero]

theorem setWidth_cellHalf_high {s : Word} (hs : Bit31Clear s) : (cellHalf s .high).setWidth 32 = s >>> 15 := by
  rw [cellHalf, setWidth_extractLsb'_16, shiftRight_and_0xFFFF hs]

/-- Bit 31 of the upper cell may be set: the mask drops it. -/
theorem joinCells_high_low (cells : Cells) (i j : Fin 16) :
    joinCells cells ⟨⟨i, .high⟩, ⟨j, .low⟩⟩ = ((cells[i] &&& 0x7FFF8000) <<< 1) ||| (cells[j] &&& 0xFFFF) := by
  rw [joinCells, append_halves, setWidth_cellHalf_low, cellHalf, setWidth_extractLsb'_16,
    shiftRight_and_0xFFFF_shiftLeft]

theorem joinCells_low_high {cells : Cells} (i : Fin 16) {j : Fin 16} (hj : Bit31Clear cells[j]) :
    joinCells cells ⟨⟨i, .low⟩, ⟨j, .high⟩⟩ = ((cells[i] &&& 0xFFFF) <<< 16) ||| (cells[j] >>> 15) := by
  rw [joinCells, append_halves, setWidth_cellHalf_low, setWidth_cellHalf_high hj]

/-! ### Word halves (R93) -/

theorem wordHalf_low_append_high (a b : Word) : wordHalf a .low ++ wordHalf b .high = (a <<< 16) ||| (b >>> 16) := by
  rw [append_halves, wordHalf, wordHalf, setWidth_extractLsb'_16, setWidth_extractLsb'_16, BitVec.ushiftRight_zero,
    and_0xFFFF_shiftLeft, shiftRight_and_0xFFFF b.isLt]

/-- `A` of R91, for the wiring of R93. -/
theorem joinHalves_throughL1 (w1 w2 : Word) :
    joinHalves w1 w2 Config.params.swapWiring.throughL1 = (w1 <<< 16) ||| (w2 >>> 16) :=
  wordHalf_low_append_high w1 w2

/-- `B` of R91, for the wiring of R93. -/
theorem joinHalves_throughL2 (w1 w2 : Word) :
    joinHalves w1 w2 Config.params.swapWiring.throughL2 = (w2 <<< 16) ||| (w1 >>> 16) :=
  wordHalf_low_append_high w2 w1

/-! ### The rounds (R95, R97) -/

/-- `X3` does not enter the state, so only the result tells the two rounds apart. -/
theorem workRoundDiscard_eq_afterKeyword (c : Params) (r : CipherRegs) : workRoundDiscard c r = afterKeyword c r := rfl

end Sys2Proof.Machine

open Sys2Proof Sys2Proof.Machine

/-- Settles O49: `X0` joins a high half and a low half; the other three words join a low half and the high half of a
cell whose bit 31 is clear. -/
theorem bitReorganisationWiring : Obligations.BitReorganisationWiring := by
  intro l hl
  have hx0 : joinCells l Config.params.brWiring.x0 = _ := joinCells_high_low l 15 14
  have hx1 : joinCells l Config.params.brWiring.x1 = _ := joinCells_low_high 11 (hl 9)
  have hx2 : joinCells l Config.params.brWiring.x2 = _ := joinCells_low_high 7 (hl 5)
  have hx3 : joinCells l Config.params.brWiring.x3 = _ := joinCells_low_high 2 (hl 0)
  rw [bitReorg, hx0, hx1, hx2, hx3]
  rfl

/-- Settles O50: the sum is the definition's own; the words that enter `L1` and `L2` are the two swapped halves. -/
theorem nonlinearFunctionOfTheRule : Obligations.NonlinearFunctionOfTheRule := by
  intro r1 r2 x0 x1 x2
  rw [nonlinearF, joinHalves_throughL1, joinHalves_throughL2]

/-- Settles O51: every round is `F` on its own reorganised cells and one advance. -/
theorem roundsOfTheRules : Obligations.RoundsOfTheRules := fun c r =>
  ⟨rfl, rfl, rfl, rfl, workRoundDiscard_eq_afterKeyword c r⟩

end

section
/-! SUPPORT. The keystream as a list of bytes, XOR with it byte by byte, and the meanings of the three commands in the
form their rules state them. -/

namespace Sys2Proof.Machine

/-! ### The keystream (R106, R113) -/

theorem ksByte_le {c : Params} (h : c.ksByteOrder = .le) (z : Word) (j : Nat) :
    ksByte c z j = ((z >>> (8 * j)) &&& 0xFF).setWidth 8 := by
  simp only [ksByte, h, setWidth_shift_and_0xFF]

theorem ksByte_be {c : Params} (h : c.ksByteOrder = .be) (z : Word) (j : Nat) :
    ksByte c z j = ((z >>> (24 - 8 * j)) &&& 0xFF).setWidth 8 := by
  simp only [ksByte, h, setWidth_shift_and_0xFF]

theorem keystream_take (c : Params) (r : CipherRegs) {m n : Nat} (h : m ≤ n) :
    (keystream c r n).take m = keystream c r m := by
  rw [keystream, ← List.map_take, List.take_range, Nat.min_eq_left h, keystream]

theorem keystream_succ (c : Params) (r : CipherRegs) (n : Nat) :
    keystream c r (n + 1) = keystreamByte c r 0 :: (List.range n).map fun a => keystreamByte c r (a + 1) := by
  rw [keystream, List.range_succ_eq_map, List.map_cons, List.map_map]
  rfl

/-! ### XOR with a keystream (R105, R117) -/

theorem xorBytes_cons (x y : Byte) (xs ys : List Byte) :
    xorBytes (x :: xs) (y :: ys) = (x ^^^ y) :: xorBytes xs ys := rfl

/-- XORing twice with bytes that are long enough gives the data back. -/
theorem xorBytes_xorBytes {xs ys : List Byte} (h : xs.length ≤ ys.length) : xorBytes (xorBytes xs ys) ys = xs := by
  induction xs generalizing ys with
  | nil => rfl
  | cons x xs ih =>
    cases ys with
    | nil => simp at h
    | cons y ys => rw [xorBytes_cons, xorBytes_cons, xor_cancel_right, ih (Nat.le_of_succ_le_succ h)]

theorem xorBytes_keystream_length (c : Params) (r : CipherRegs) (data : List Byte) :
    (xorBytes data (keystream c r data.length)).length = data.length := by
  simp

theorem xorBytes_keystream_getElem? (c : Params) (r : CipherRegs) {data : List Byte} {a : Nat} (h : a < data.length) :
    (xorBytes data (keystream c r data.length))[a]? = some (data[a] ^^^ keystreamByte c r a) := by
  rw [xorBytes, List.getElem?_zipWith, keystream_getElem?, if_pos h, List.getElem?_eq_getElem h]

/-! ### The registers INIT and GENKW leave (R95, R101) -/

theorem initialRegs_eq (c : Params) (key iv : Block) :
    initialRegs c key iv = workRoundDiscard c (repeatRound (initRound c) 32 ⟨lfsrLoad c key iv, 0, 0⟩) := rfl

theorem afterKeyword_eq (c : Params) (r : CipherRegs) :
    afterKeyword c r = ⟨shiftIn r.lfsr (feedbackSum c r.lfsr), (roundF c r).r1, (roundF c r).r2⟩ := rfl

/-! ### INIT and then CRYPT, for every value of the parameters (R113) -/

theorem runCrypt_fresh (c : Params) (data : List Byte) {s : State} (h : s.phase = .fresh) :
    runCrypt c data s = .next (respond
      { s with cipher := afterKeywords c (1 + ceilDiv4 data.length) s.cipher, phase := .running }
      (.ok (.data (xorBytes data (keystream c s.cipher data.length))))) := by
  rw [← cryptBody_eq]
  simp only [runCrypt, h]

/-- Nothing of the state INIT finds reaches a response. -/
theorem runInit_runCrypt (c : Params) (key iv : Block) (data : List Byte) (s : State) :
    ∃ t u, runInit c key iv s = .next t ∧ runCrypt c data t = .next u ∧ u.responses = s.responses ++
      [.ok .empty, .ok (.data (xorBytes data (keystream c (initialRegs c key iv) data.length)))] :=
  ⟨_, _, rfl, runCrypt_fresh c data (respond_phase _ _), by simp⟩

/-! ### Frames with a fault latched (R100, R159) -/

theorem respond_latched {s : State} {code : FaultCode} (h : s.fault = some code) (r : Response) :
    respond s r = { s with fault := some code, responses := s.responses ++ [r] } := by
  rw [← h]
  rfl

theorem deliverFrame_latched {s : State} {code : FaultCode} (h : s.fault = some code) (frame : List Byte) :
    deliverFrame frame s = .next (respond s (.fault code)) := by
  cases hd : decode frame with
  | error e => rw [deliverFrame_error hd, illegalFrame, unlessLatched_some h]
  | ok i => rw [deliverFrame_ok hd, exec_latched h]

end Sys2Proof.Machine

open Sys2Proof Sys2Proof.Machine

/-- Settles O18, row by row from what each command does in each phase. -/
theorem phaseTransitionTable : Obligations.PhaseTransitionTable := by
  unfold Obligations.PhaseTransitionTable
  intro faults
  refine ⟨?init, ?commandsInReset, ?genkw, ?crypt, ?cryptInRunning, ?illegal, ?latched, ?resetEvent⟩
  case init => exact fun s hf key iv => ⟨_, exec_init hf key iv, by simp, by simp [hf], by simp⟩
  case commandsInReset =>
    intro s hf hp
    constructor
    · exact (exec_genkw_reset hf hp).trans (congrArg _ (raiseFault_unlatched hf _))
    · exact fun data => (exec_crypt_reset hf hp data).trans (congrArg _ (raiseFault_unlatched hf _))
  case genkw => exact fun s hf hp => ⟨_, _, exec_genkw_ready hf hp, by simp, by simp [hf], rfl⟩
  case crypt => exact fun s hf hp data =>
    ⟨_, _, exec_crypt_fresh hf hp data, by simp, by simp [hf], rfl, xorBytes_keystream_length _ _ data⟩
  case cryptInRunning => exact fun s hf hp data =>
    (exec_crypt_running hf hp data).trans (congrArg _ (raiseFault_unlatched hf _))
  case illegal => exact fun s hf frame hill => deliverFrame_illegal hf hill
  case latched => exact fun s code hf frame =>
    (deliverFrame_latched hf frame).trans (congrArg _ (respond_latched hf _))
  case resetEvent => exact fun s => ⟨_, deliver_reset s, rfl, rfl⟩

/-- Settles O24, from the equation of CRYPT in phase FRESH. -/
theorem cryptResult : Obligations.CryptResult := fun s data hf hp =>
  ⟨_, exec_crypt_fresh hf hp data, xorBytes_keystream_length _ _ data,
    fun _ ha => xorBytes_keystream_getElem? Config.params s.cipher ha⟩

/-- Settles O25: the keystream is the one of the registers INIT leaves, which it computes from key and IV alone. -/
theorem cryptXorsTheKeystream : Obligations.CryptXorsTheKeystream := by
  intro c key iv
  refine ⟨keystream c (initialRegs c key iv), keystream_length _ _, fun n a ha => ?_,
    fun m n h => (keystream_take _ _ h).symm, fun s data => runInit_runCrypt c key iv data s⟩
  rw [keystream_getElem?, if_pos ha]
  rfl

/-- Settles O27: the first response byte is the first data byte XORed with keystream byte 0. -/
theorem nonIdentityOfFirstByte : Obligations.NonIdentityOfFirstByte := by
  intro s b data hf hp
  have hexec := exec_crypt_fresh hf hp (b :: data)
  rw [List.length_cons, keystream_succ, xorBytes_cons] at hexec
  exact ⟨_, _, _, hexec, rfl, not_congr xor_left_eq_self_iff⟩

/-- Settles O19, with the registers INIT leaves written out. -/
theorem initResult : Obligations.InitResult := by
  intro s key iv hf
  rw [exec_init hf, initialRegs_eq]
  rfl

/-- Settles O22, with the registers a keyword leaves written out. -/
theorem genkwResult : Obligations.GenkwResult := by
  constructor
  · intro s hf hp x f
    have hready : s.phase ≠ .reset := by rcases hp with hp | hp <;> simp [hp]
    rw [exec_genkw_ready hf hready, afterKeyword_eq]
    rfl
  · intro s hf hp
    rw [exec_genkw_reset hf hp, raiseFault_unlatched hf]

/-- Settles O44: both byte orders cut one byte out of the keyword. -/
theorem keystreamByteOfKeyword : Obligations.KeystreamByteOfKeyword := fun _ z j _ =>
  ⟨fun h => ksByte_le h z j, fun h => ksByte_be h z j, rfl⟩

end

section
/-! SUPPORT. Runs from a state with nothing waiting: NEW, then keywords or one CRYPT (R56, R116, R117). -/

namespace Sys2Proof.Machine

theorem runEvents_of_inbox_nil {s : State} (h : s.inbox = []) (es : List HostEvent) :
    runEvents es s = runSteps es.length (s.withEvents es) := by
  rw [runEvents, h, List.length_nil, Nat.zero_add]

/-- `NEW key, iv` leaves a fresh engine whose registers INIT made of key and IV, whatever it was before. -/
theorem runSteps_new {s : State} {key iv : Block} {rest : List HostEvent}
    (h : s.inbox = (Pseudo.new key iv).events ++ rest) :
    ∃ t, (∀ n, runSteps (n + 2) s = runSteps n t) ∧ t.inbox = rest ∧ t.fault = none ∧ t.phase = .fresh ∧
      t.cipher = initialRegs Config.params key iv ∧ t.responses = s.responses ++ [.ok .empty] := by
  have hreset (n : Nat) : runSteps (n + 2) s = runSteps (n + 1) _ := runSteps_event h (deliver_reset _) (n + 1)
  have hinit (n : Nat) : runSteps (n + 1) _ = runSteps n _ :=
    runSteps_event (s := resetEvent { s with inbox := issue (.init key iv) :: rest }) rfl
      ((deliver_issue_init _ key iv).trans (exec_init rfl key iv)) n
  exact ⟨_, fun n => (hreset n).trans (hinit n), by simp, by simp, by simp, by simp, by simp⟩

/-- `k` GENKW on an initialised engine answer the next `k` keywords of its registers (R116). -/
theorem runSteps_keystream {k : Nat} {s : State} (hf : s.fault = none) (hp : s.phase ≠ .reset)
    (h : s.inbox = (Pseudo.keystream k).events) :
    ∃ t, runSteps k s = .next t ∧ t.responses = s.responses ++
      ((List.range k).map (keywordAt Config.params s.cipher)).map fun z => .ok (.keyword z) := by
  induction k generalizing s with
  | zero => exact ⟨s, rfl, by simp⟩
  | succ k ih =>
    have hstep := runSteps_event h ((deliver_issue_genkw _).trans (exec_genkw_ready hf hp)) k
    obtain ⟨t, ht, hresp⟩ := ih (s := respond { s with
      inbox := (Pseudo.keystream k).events, cipher := afterKeyword Config.params s.cipher, phase := .running }
      (.ok (.keyword (keywordOf Config.params s.cipher)))) (by simp [hf]) (by simp) rfl
    refine ⟨t, hstep.trans ht, ?_⟩
    rw [hresp, List.range_succ_eq_map, respond_responses, List.append_assoc]
    simp only [List.map_cons, List.map_map]
    rfl

/-- `ENCRYPT key, iv, data` on any engine with nothing waiting answers the data XORed with the keystream of key and IV
(R56, R113). -/
theorem runEvents_encrypt {s : State} (h : s.inbox = []) (key iv : Block) {data : List Byte}
    (hlen : data.length ≤ Config.params.maxLen) :
    ∃ t, runEvents (Pseudo.encrypt key iv data).events s = .next t ∧ t.responses = s.responses ++ [.ok .empty,
      .ok (.data (xorBytes data (keystream Config.params (initialRegs Config.params key iv) data.length)))] := by
  obtain ⟨t, ht, hin, hf, hp, hcipher, hresp⟩ := runSteps_new (key := key) (iv := iv) (rest := [issue (.crypt data)])
    (s := s.withEvents (Pseudo.encrypt key iv data).events) (by rw [withEvents_inbox, h]; rfl)
  have hcrypt := runSteps_event hin
    ((deliver_issue_crypt _ hlen).trans (exec_crypt_fresh (s := { t with inbox := [] }) hf hp data)) 0
  refine ⟨_, (runEvents_of_inbox_nil h _).trans ((ht 1).trans hcrypt), ?_⟩
  simp [hresp, hcipher]

end Sys2Proof.Machine

open Sys2Proof Sys2Proof.Machine

/-- Settles O23: the words are the keywords of the registers INIT makes of key and IV. -/
theorem keystreamIsDeterministic : Obligations.KeystreamIsDeterministic := by
  intro key iv k
  refine ⟨(List.range k).map (keywordAt Config.params (initialRegs Config.params key iv)), by simp, fun s h => ?_⟩
  obtain ⟨t, ht, hin, hf, hp, hcipher, hresp⟩ := runSteps_new (key := key) (iv := iv)
    (rest := (Pseudo.keystream k).events)
    (s := s.withEvents ((Pseudo.new key iv).events ++ (Pseudo.keystream k).events)) (by rw [withEvents_inbox, h]; rfl)
  obtain ⟨u, hu, hwords⟩ := runSteps_keystream hf (by simp [hp]) hin
  have hlen : ((Pseudo.new key iv).events ++ (Pseudo.keystream k).events).length = k + 2 := by
    simp [Pseudo.events, Pseudo.expand]
  refine ⟨u, ?_, ?_⟩
  · rw [runEvents_of_inbox_nil h, hlen, ht, hu]
  · simp [hwords, hresp, hcipher]

/-- Settles O26: both runs XOR with one keystream, and XORing twice gives the data back. -/
theorem engineRoundTrip : Obligations.EngineRoundTrip := by
  have hback (c : Params) (r : CipherRegs) (data : List Byte) :
      xorBytes (xorBytes data (keystream c r data.length)) (keystream c r data.length) = data :=
    xorBytes_xorBytes (keystream_length c r _).ge
  constructor
  · intro key iv data hlen
    have hct := xorBytes_keystream_length Config.params (initialRegs Config.params key iv) data
    refine ⟨_, hct, fun s h => runEvents_encrypt h key iv hlen, fun s h => ?_⟩
    have hrun := runEvents_encrypt h key iv (hct.trans_le hlen)
    rwa [hct, hback] at hrun
  · intro c key iv data
    have hct := xorBytes_keystream_length c (initialRegs c key iv) data
    refine ⟨_, hct, fun s s' => ?_⟩
    obtain ⟨t, u, ht, hu, hresp⟩ := runInit_runCrypt c key iv data s
    obtain ⟨t', u', ht', hu', hresp'⟩ := runInit_runCrypt c key iv (xorBytes data (keystream c _ data.length)) s'
    rw [hct, hback] at hresp'
    exact ⟨t, u, t', u', ht, hu, hresp, ht', hu', hresp'⟩

end

section
/-! SUPPORT. The expanded key: one byte's mixing in closed form, and the buffer byte by byte (R126). -/

namespace Sys2Proof.Machine

/-- Below the password's length the index does not wrap (R126). -/
theorem passwordByte_of_lt {password : List Byte} {k : Nat} (h : k < password.length) :
    passwordByte password k = password.getD k 0 := by
  rw [passwordByte, Nat.mod_eq_of_lt h]

/-- The password bytes added to byte `i`: none, the first, or the first two (R126). -/
theorem mixByte_eq_add {password : List Byte} (h : 2 ≤ password.length) (i : Nat) (output : Word) :
    mixByte password i output = (output.setWidth 8 ^^^ passwordByte password i) +
      (if i % 3 = 0 then 0 else if i % 3 = 1 then password.getD 0 0 else password.getD 0 0 + password.getD 1 0) := by
  have h0 := passwordByte_of_lt (password := password) (k := 0) (by omega)
  have h1 := passwordByte_of_lt (password := password) (k := 1) (by omega)
  have hi : i % 3 = 0 ∨ i % 3 = 1 ∨ i % 3 = 2 := by omega
  rw [mixByte]
  obtain hi | hi | hi := hi
  · simp [hi]
  · simp [hi, h0]
  · simp [hi, List.range_succ, h0, h1, BitVec.add_assoc]

/-- A password of 4 to 64 bytes expands, each byte mixed from the generator's next output (R123, R125). -/
theorem expand_ok_getElem (seed0 : Word) {password : List Byte} (h4 : 4 ≤ password.length)
    (h64 : password.length ≤ 64) :
    ∃ ek, expand seed0 password = .ok ek ∧ ∀ (i : Nat) (h : i < 256),
      ek[i] = mixByte password i (lcgOutput (lcgUpdate^[i + 1] (seedOf seed0 password))) := by
  refine ⟨_, if_pos ⟨h4, h64⟩, fun i h => ?_⟩
  have hbyte := expandFrom_getElem? password 256 0 (seedOf seed0 password) h
  rw [Nat.zero_add] at hbyte
  simpa using (List.getElem?_eq_some_iff.mp hbyte).2

end Sys2Proof.Machine

open Sys2Proof Sys2Proof.Machine

/-- Settles O54: each byte of the buffer is one mixing, whose sum has at most two password bytes. -/
theorem expandedKeyBytes : Obligations.ExpandedKeyBytes := by
  intro seed0 password h4 h64
  obtain ⟨ek, hek, hbytes⟩ := expand_ok_getElem seed0 h4 h64
  refine ⟨ek, hek, fun i h => ?_⟩
  rw [hbytes i h, mixByte_eq_add (by omega), passwordByte]

end

section
/-! SUPPORT. When a fault is raised and what it leaves: an event with no fault latched either latches nothing or raises
one fault, and a frame with one latched is only answered (R152 to R159). -/

namespace Sys2Proof.Machine

/-! ### Which commands raise which fault, with none latched (R154, R155) -/

theorem exec_init_not_latches {s t : State} {key iv : Block} (h : s.fault = none)
    (ht : exec (.init key iv) s = .next t) : t.fault = none := by
  cases (exec_init h key iv).symm.trans ht
  exact h

/-- GENKW raises NOT_INITIALISED in phase RESET and nothing in the other two. -/
theorem exec_genkw_fault {s t : State} (h : s.fault = none) (ht : exec .genkw s = .next t) :
    t.fault = if s.phase = .reset then some .notInitialised else none := by
  by_cases hp : s.phase = .reset
  · cases (exec_genkw_reset h hp).symm.trans ht
    simp [h, hp]
  · cases (exec_genkw_ready h hp).symm.trans ht
    simp [h, hp]

/-! ### Faults are precise (R152) -/

/-- A command with no fault latched raises one on the state as it is, or leaves none latched. -/
theorem exec_raises_or_unlatched {s : State} (h : s.fault = none) (i : Instr) :
    (∃ code, exec i s = .next (raiseFault code s)) ∨ ∃ t, exec i s = .next t ∧ t.fault = none := by
  obtain ⟨code, hf, -⟩ | ⟨-, -, -, hreset⟩ | ⟨-, -, -, hrunning⟩ | ⟨key, iv, -, -, hinit⟩ | ⟨-, -, -, hgenkw⟩ |
    ⟨data, -, -, -, hcrypt⟩ := exec_cases i s
  · simp [h] at hf
  · exact .inl ⟨_, hreset⟩
  · exact .inl ⟨_, hrunning⟩
  · exact .inr ⟨_, hinit, h⟩
  · exact .inr ⟨_, hgenkw, h⟩
  · exact .inr ⟨_, hcrypt, h⟩

/-- An event with no fault latched raises one on the state as it is, or leaves none latched. -/
theorem deliver_raises_or_unlatched {s : State} (h : s.fault = none) (e : HostEvent) :
    (∃ code, deliver e s = .next (raiseFault code s)) ∨ ∃ t, deliver e s = .next t ∧ t.fault = none := by
  cases e with
  | reset => exact .inr ⟨_, deliver_reset s, resetEvent_fault s⟩
  | command frame =>
    cases hd : decode frame with
    | error e => exact .inl ⟨.illegalCommand, (deliverFrame_error hd s).trans (unlessLatched_none h _)⟩
    | ok i =>
      have hexec : deliver (.command frame) s = exec i s := deliverFrame_ok hd s
      rw [hexec]
      exact exec_raises_or_unlatched h i

/-- An event that latches a fault changes the latch and the responses only. -/
theorem deliver_latches {s t : State} {code : FaultCode} {e : HostEvent} (h : s.fault = none)
    (ht : deliver e s = .next t) (hcode : t.fault = some code) :
    t = { s with fault := some code, responses := s.responses ++ [.fault code] } := by
  obtain ⟨code', hraise⟩ | ⟨t', hnext, hnone⟩ := deliver_raises_or_unlatched h e
  · cases hraise.symm.trans ht
    obtain rfl : code' = code := by simpa [h] using hcode
    exact raiseFault_unlatched h code'
  · cases hnext.symm.trans ht
    simp [hnone] at hcode

/-! ### Steps with a fault latched (R159) -/

theorem step_latched_command {s : State} {code : FaultCode} {frame : List Byte} {rest : List HostEvent}
    (h : s.fault = some code) (hin : s.inbox = .command frame :: rest) :
    step s = .next (respond { s with inbox := rest } (.fault code)) :=
  (step_event hin).trans (deliverFrame_latched (s := { s with inbox := rest }) h frame)

theorem step_keeps_latch {s t : State} {code : FaultCode} (h : s.fault = some code)
    (hin : ∀ rest, s.inbox ≠ .reset :: rest) (ht : step s = .next t) : t.fault = some code := by
  rcases he : s.inbox with _ | ⟨_ | frame, rest⟩
  · cases (step_idle he).symm.trans ht
    exact h
  · exact absurd he (hin rest)
  · cases (step_latched_command h he).symm.trans ht
    exact h

end Sys2Proof.Machine

open Sys2Proof Sys2Proof.Machine

/-- Settles O13: a frame is answered and nothing more, RESET clears the latch, and no other step touches it. -/
theorem latchedFaultAnswersEverything : Obligations.LatchedFaultAnswersEverything :=
  ⟨fun _ _ _ _ => step_latched_command,
    fun _ _ _ _ hin => ⟨_, (step_event hin).trans (deliver_reset _), resetEvent_fault _, resetEvent_phase _⟩,
    fun _ _ _ => step_keeps_latch⟩

/-- Settles O14: waiting latches nothing, and an event that latches a fault changes nothing but latch and responses. -/
theorem faultsArePrecise : Obligations.FaultsArePrecise := by
  intro s t code hf ht hcode
  cases hin : s.inbox with
  | nil =>
    cases (step_idle hin).symm.trans ht
    simp [hf] at hcode
  | cons e rest => exact deliver_latches (s := { s with inbox := rest }) hf ((step_event hin).symm.trans ht) hcode

/-- Settles O15, from what each command does in phase RESET. -/
theorem notInitialisedInPhaseReset : Obligations.NotInitialisedInPhaseReset := by
  refine ⟨fun s hf hp => ?_, fun _ _ _ _ => exec_init_not_latches⟩
  rw [← raiseFault_unlatched hf]
  exact ⟨exec_genkw_reset hf hp, exec_crypt_reset hf hp⟩

/-- Settles O16: CRYPT by its case of phase RUNNING, GENKW because the one fault it raises is another. -/
theorem notFreshInPhaseRunning : Obligations.NotFreshInPhaseRunning := by
  constructor
  · intro s data hf hp
    rw [exec_crypt_running hf hp, raiseFault_unlatched hf]
  · intro s t hf ht
    rw [exec_genkw_fault hf ht]
    split <;> simp

end

section
/-! SUPPORT. Which events leave phase RUNNING: an illegal frame keeps the phase, and of the commands only INIT leaves it
(R112, R172). -/

namespace Sys2Proof.Machine

theorem illegalFrame_keeps_phase {s t : State} (ht : illegalFrame s = .next t) : t.phase = s.phase := by
  obtain ⟨code, -, hanswer⟩ | ⟨-, hraise⟩ := illegalFrame_cases s
  · cases hanswer.symm.trans ht
    exact respond_phase s _
  · cases hraise.symm.trans ht
    exact raiseFault_phase s _

theorem exec_from_running {i : Instr} {s t : State} (hp : s.phase = .running) (ht : exec i s = .next t) :
    t.phase = .running ∨ ∃ key iv, i = .init key iv ∧ t.phase = .fresh := by
  obtain ⟨code, -, hlatched⟩ | ⟨-, hreset, -⟩ | ⟨-, -, -, hraise⟩ | ⟨key, iv, -, rfl, hinit⟩ | ⟨-, -, -, hgenkw⟩ |
    ⟨data, -, hfresh, -⟩ := exec_cases i s
  · cases hlatched.symm.trans ht
    exact .inl hp
  · simp [hp] at hreset
  · cases hraise.symm.trans ht
    exact .inl hp
  · cases hinit.symm.trans ht
    exact .inr ⟨key, iv, rfl, rfl⟩
  · cases hgenkw.symm.trans ht
    exact .inl rfl
  · simp [hp] at hfresh

theorem step_reset {s : State} {rest : List HostEvent} (hin : s.inbox = .reset :: rest) :
    step s = .next (resetEvent { s with inbox := rest }) :=
  (step_event hin).trans (deliver_reset _)

theorem step_leaves_running {s t : State} (ht : step s = .next t) (hp : s.phase = .running) (hq : t.phase ≠ .running) :
    (∃ rest, s.inbox = .reset :: rest ∧ t.phase = .reset) ∨
    ∃ frame rest key iv, s.inbox = .command frame :: rest ∧ decode frame = .ok (.init key iv) ∧ t.phase = .fresh := by
  obtain ⟨-, hidle⟩ | ⟨rest, hin, hreset⟩ | ⟨frame, rest, e, -, -, hillegal⟩ | ⟨frame, rest, i, hin, hdec, hexec⟩ :=
    step_cases s
  · cases hidle.symm.trans ht
    exact absurd hp hq
  · cases hreset.symm.trans ht
    exact .inl ⟨rest, hin, resetEvent_phase _⟩
  · exact absurd ((illegalFrame_keeps_phase (hillegal.symm.trans ht)).trans hp) hq
  · obtain hrunning | ⟨key, iv, rfl, hfresh⟩ :=
      exec_from_running (s := { s with inbox := rest }) hp (hexec.symm.trans ht)
    · exact absurd hrunning hq
    · exact .inr ⟨frame, rest, key, iv, hin, hdec, hfresh⟩

/-- `step_keeps_latch` read backwards: a latch that is gone was cleared by RESET. -/
theorem step_clears_latch {s t : State} (ht : step s = .next t) (hs : s.fault ≠ none) (hclear : t.fault = none) :
    ∃ rest, s.inbox = .reset :: rest := by
  obtain ⟨code, hcode⟩ := Option.ne_none_iff_exists'.mp hs
  by_contra hin
  have hkept : t.fault = some code := step_keeps_latch hcode (not_exists.mp hin) ht
  simp [hclear] at hkept

end Sys2Proof.Machine

open Sys2Proof Sys2Proof.Machine

/-- Settles O34: what clears a latch, what leaves phase RUNNING, and what the RESET event does from any state. -/
theorem onlyResetAndInitLeaveRunning : Obligations.OnlyResetAndInitLeaveRunning :=
  ⟨fun _ _ => step_clears_latch, fun _ _ => step_leaves_running,
    fun _ _ hin => ⟨_, step_reset hin, resetEvent_phase _, resetEvent_fault _⟩⟩

end

section
/-! SUPPORT. Encoder and decoder against each other, for every command: a frame that is encoded decodes (R46 to R48), a
frame that decodes is an encoded one (R51, R52), and a frame's length is read from its head (R54). -/

namespace Sys2Proof

theorem wellFormed_crypt_iff (data : List Byte) :
    (Instr.crypt data).wellFormed = true ↔ data.length ≤ Config.params.maxLen :=
  decide_eq_true_iff

theorem decode_encode {i : Instr} (h : i.wellFormed = true) : decode (encode i) = .ok i := by
  cases i with
  | init key iv => exact decodeFor_encode_init Config.params key iv
  | genkw => exact decodeFor_encode_genkw Config.params
  | crypt data => exact decodeFor_encode_crypt ((wellFormed_crypt_iff data).1 h)

/-- Data as long as a length field says are well formed, and that field is the encoder's. -/
theorem encode_crypt {w : Word} {data : List Byte} (h : data.length = w.toNat) :
    (Instr.crypt data).wellFormed = true ∧ encode (.crypt data) = opCrypt :: (le32Bytes w ++ data) := by
  constructor
  · have hmax := Machine.lenField_le_maxLen (opCrypt :: (le32Bytes w ++ data))
    rwa [Machine.lenField_le32Bytes, ← h, ← wellFormed_crypt_iff] at hmax
  · rw [encode, h, BitVec.ofNat_toNat, BitVec.setWidth_eq]

theorem encode_of_decode {frame : List Byte} {i : Instr} (h : decode frame = .ok i) :
    i.wellFormed = true ∧ encode i = frame := by
  obtain ⟨operands, rfl, hlen, rfl⟩ | ⟨rfl, rfl⟩ | ⟨w, data, rfl, hlen, rfl⟩ := Machine.decode_ok_cases h
  · exact ⟨rfl, by rw [encode, operandBlock_join hlen]⟩
  · exact ⟨rfl, rfl⟩
  · exact encode_crypt hlen

theorem requiredLength_encode_append {i : Instr} (h : i.wellFormed = true) (rest : List Byte) :
    requiredLength (encode i ++ rest) = some (encode i).length := by
  cases i with
  | init key iv => exact Laws.EncodeFraming.init key iv h rest
  | genkw => exact Laws.EncodeFraming.genkw h rest
  | crypt data => exact Laws.EncodeFraming.crypt data h rest

theorem cutFrame_of_requiredLength {frame rest : List Byte} (h : requiredLength (frame ++ rest) = some frame.length) :
    cutFrame (frame ++ rest) = some (frame, rest) := by
  simp [cutFrame, h]

end Sys2Proof

open Sys2Proof Sys2Proof.Machine

/-- Settles O1, format by format. -/
theorem decodeInvertsEncode : Obligations.DecodeInvertsEncode := fun _ => decode_encode

/-- Settles O2, from the shape of the frames the decoder accepts. -/
theorem encodeInvertsDecode : Obligations.EncodeInvertsDecode := fun _ _ => encode_of_decode

/-- Settles O6: the head of a frame tells its length, whatever follows. -/
theorem framesAreCutExactly : Obligations.FramesAreCutExactly := fun _ rest h =>
  cutFrame_of_requiredLength (requiredLength_encode_append h rest)

/-- Settles O5: each of the frames is the encoder's. -/
theorem sampleFramesDecode : Obligations.SampleFramesDecode :=
  ⟨decode_encode (i := .genkw) rfl, decode_encode (i := .crypt []) rfl,
    decode_encode (i := .crypt [0x68, 0x65, 0x6C, 0x6C, 0x6F, 0x0A]) rfl, rfl⟩

/-- Settles O7: the payload's bytes follow the byte 0, and a fault's code stands alone. -/
theorem responseFrameBytes : Obligations.ResponseFrameBytes :=
  ⟨rfl, fun _ => rfl, fun _ => rfl, rfl, rfl, rfl⟩

end

section
/-! SUPPORT. The two ways a command frame is answered (R100, R112): with FAULT, which changes the latch and the
responses only, or with OK, after one of the three effects. -/

namespace Sys2Proof.Machine

/-! ### The answers FAULT and OK -/

/-- A FAULT answer: the latch holds the code, and nothing else changes (R152, R159). -/
def State.faulted (s : State) (code : FaultCode) : State :=
  { s with fault := some code, responses := s.responses ++ [.fault code] }

/-- The phase does not allow the command (R154, R155). -/
def Phase.Refuses (p : Phase) (code : FaultCode) : Prop :=
  p = .reset ∧ code = .notInitialised ∨ p = .running ∧ code = .notFresh

/-- An OK answer to the command `i`: INIT makes the registers from its operands, and GENKW and CRYPT draw keywords from
the registers of an initialised engine (R101 to R105). -/
structure AnswersOk (i : Instr) (s t : State) : Prop where
  faultBefore : s.fault = none
  faultAfter : t.fault = none
  inbox : t.inbox = s.inbox
  resets : t.resets = s.resets
  responses : ∃ payload, t.responses = s.responses ++ [.ok payload]
  effect :
    (i = .init t.key t.iv ∧ t.phase = .fresh ∧ t.cipher = initialRegs Config.params t.key t.iv) ∨
    ((i = .genkw ∨ ∃ data, i = .crypt data) ∧ t.key = s.key ∧ t.iv = s.iv ∧ s.phase ≠ .reset ∧ t.phase = .running ∧
      ∃ n, 0 < n ∧ t.cipher = afterKeywords Config.params n s.cipher)

/-- INIT with no fault latched answers OK in every phase. -/
theorem answersOk_init {s : State} (hf : s.fault = none) (key iv : Block) : AnswersOk (.init key iv) s (respond
    { s with key := key, iv := iv, cipher := initialRegs Config.params key iv, phase := .fresh } (.ok .empty)) where
  faultBefore := hf
  faultAfter := by simp [hf]
  inbox := by simp
  resets := by simp
  responses := ⟨.empty, rfl⟩
  effect := .inl (by simp)

/-- Drawing keywords is an OK answer to GENKW and to CRYPT. -/
theorem answersOk_draw {i : Instr} {s : State} (hf : s.fault = none) (hp : s.phase ≠ .reset)
    (hi : i = .genkw ∨ ∃ data, i = .crypt data) {n : Nat} (hn : 0 < n) (payload : Payload) : AnswersOk i s (respond
      { s with cipher := afterKeywords Config.params n s.cipher, phase := .running } (.ok payload)) where
  faultBefore := hf
  faultAfter := by simp [hf]
  inbox := by simp
  resets := by simp
  responses := ⟨payload, rfl⟩
  effect := .inr ⟨hi, rfl, rfl, hp, rfl, n, hn, rfl⟩

theorem exec_answers (i : Instr) (s : State) : ∃ t, exec i s = .next t ∧
    ((∃ code, (s.fault = some code ∨ s.fault = none ∧ s.phase.Refuses code) ∧ t = s.faulted code) ∨
      AnswersOk i s t) := by
  obtain ⟨code, hf, h⟩ | ⟨hf, hp, -, h⟩ | ⟨hf, hp, -, h⟩ | ⟨key, iv, hf, rfl, h⟩ | ⟨hf, hp, rfl, h⟩ |
    ⟨data, hf, hp, rfl, h⟩ := exec_cases i s
  · exact ⟨_, h, .inl ⟨code, .inl hf, respond_latched hf _⟩⟩
  · exact ⟨_, h, .inl ⟨_, .inr ⟨hf, .inl ⟨hp, rfl⟩⟩, raiseFault_unlatched hf _⟩⟩
  · exact ⟨_, h, .inl ⟨_, .inr ⟨hf, .inr ⟨hp, rfl⟩⟩, raiseFault_unlatched hf _⟩⟩
  · exact ⟨_, h, .inr (answersOk_init hf key iv)⟩
  · exact ⟨_, h, .inr (answersOk_draw hf hp (.inl rfl) Nat.one_pos _)⟩
  · exact ⟨_, h, .inr (answersOk_draw hf (by simp [hp]) (.inr ⟨data, rfl⟩) (by omega) _)⟩

/-- The priority of R157: the latched code, then an illegal frame, then a phase that does not allow the command. -/
def FaultCause (frame : List Byte) (s : State) (code : FaultCode) : Prop :=
  s.fault = some code ∨ s.fault = none ∧
    (FrameIllegal frame ∧ code = .illegalCommand ∨ ¬ FrameIllegal frame ∧ s.phase.Refuses code)

theorem deliverFrame_answers (frame : List Byte) (s : State) : ∃ t, deliverFrame frame s = .next t ∧
    ((∃ code, FaultCause frame s code ∧ t = s.faulted code) ∨ ∃ i, decode frame = .ok i ∧ AnswersOk i s t) := by
  by_cases hill : FrameIllegal frame
  · rcases Option.eq_none_or_eq_some s.fault with hf | ⟨code, hf⟩
    · exact ⟨_, deliverFrame_illegal hf hill, .inl ⟨_, .inr ⟨hf, .inl ⟨hill, rfl⟩⟩, rfl⟩⟩
    · exact ⟨_, deliverFrame_latched hf frame, .inl ⟨code, .inl hf, respond_latched hf _⟩⟩
  · obtain ⟨i, hi⟩ := decode_ok_of_not_frameIllegal hill
    obtain ⟨t, ht, hanswer⟩ := exec_answers i s
    refine ⟨t, (deliverFrame_ok hi s).trans ht, hanswer.imp ?_ fun hok => ⟨i, hi, hok⟩⟩
    exact fun ⟨code, hcode, hfaulted⟩ => ⟨code, hcode.imp_right (.imp_right fun h => .inr ⟨hill, h⟩), hfaulted⟩

theorem step_next (s : State) : ∃ t, step s = .next t := by
  rcases hin : s.inbox with _ | ⟨_ | frame, rest⟩
  · exact ⟨s, step_idle hin⟩
  · exact ⟨_, step_reset hin⟩
  · obtain ⟨t, ht, -⟩ := deliverFrame_answers frame { s with inbox := rest }
    exact ⟨t, (step_event hin).trans ht⟩

/-- `exec_answers` of a given next state. -/
theorem exec_fault_or_ok {i : Instr} {s t : State} (ht : exec i s = .next t) :
    (∃ code, t = s.faulted code) ∨ AnswersOk i s t := by
  obtain ⟨t', ht', hanswer⟩ := exec_answers i s
  obtain rfl := Host.Outcome.next.inj (ht'.symm.trans ht)
  exact hanswer.imp_left fun ⟨code, _, hfaulted⟩ => ⟨code, hfaulted⟩

/-- `deliverFrame_answers` of a given next state. -/
theorem deliverFrame_fault_or_ok {frame : List Byte} {s t : State} (ht : deliverFrame frame s = .next t) :
    (∃ code, FaultCause frame s code ∧ t = s.faulted code) ∨ ∃ i, decode frame = .ok i ∧ AnswersOk i s t := by
  obtain ⟨t', ht', hanswer⟩ := deliverFrame_answers frame s
  obtain rfl := Host.Outcome.next.inj (ht'.symm.trans ht)
  exact hanswer

/-! ### What GENKW and CRYPT do not read (R14, R170) -/

/-- GENKW and CRYPT commute with a change of `KEY` and `IV`. -/
theorem exec_with_key_iv {i : Instr} (hi : i = .genkw ∨ ∃ data, i = .crypt data) (s : State) (key iv : Block) :
    ∃ t, exec i s = .next t ∧ exec i { s with key := key, iv := iv } = .next { t with key := key, iv := iv } := by
  obtain ⟨code, hf, h⟩ | ⟨hf, hp, rfl | ⟨data, rfl⟩, h⟩ | ⟨hf, hp, ⟨data, rfl⟩, h⟩ | ⟨_, _, -, rfl, -⟩ |
    ⟨hf, hp, rfl, h⟩ | ⟨data, hf, hp, rfl, h⟩ := exec_cases i s
  · exact ⟨_, h, exec_latched (s := { s with key := key, iv := iv }) hf i⟩
  · exact ⟨_, h, exec_genkw_reset (s := { s with key := key, iv := iv }) hf hp⟩
  · exact ⟨_, h, exec_crypt_reset (s := { s with key := key, iv := iv }) hf hp data⟩
  · exact ⟨_, h, exec_crypt_running (s := { s with key := key, iv := iv }) hf hp data⟩
  · simp at hi
  · exact ⟨_, h, exec_genkw_ready (s := { s with key := key, iv := iv }) hf hp⟩
  · exact ⟨_, h, exec_crypt_fresh (s := { s with key := key, iv := iv }) hf hp data⟩

/-- In phase RESET a frame is an INIT, or it is answered with a code that the frame and the latch determine. -/
theorem deliverFrame_of_phase_reset (frame : List Byte) (fault : Option FaultCode) :
    (∃ key iv, decode frame = .ok (.init key iv) ∧ fault = none) ∨
    ∃ code, ∀ s : State, s.phase = .reset → s.fault = fault → deliverFrame frame s = .next (s.faulted code) := by
  cases fault with
  | some code => exact .inr ⟨code, fun s _ hf => by rw [deliverFrame_latched hf, respond_latched hf]; rfl⟩
  | none =>
    by_cases hill : FrameIllegal frame
    · exact .inr ⟨_, fun s _ hf => deliverFrame_illegal hf hill⟩
    · obtain ⟨i, hi⟩ := decode_ok_of_not_frameIllegal hill
      cases i with
      | init key iv => exact .inl ⟨key, iv, hi, rfl⟩
      | genkw =>
        refine .inr ⟨.notInitialised, fun s hp hf => ?_⟩
        rw [deliverFrame_ok hi, exec_genkw_reset hf hp, raiseFault_unlatched hf]; rfl
      | crypt data =>
        refine .inr ⟨.notInitialised, fun s hp hf => ?_⟩
        rw [deliverFrame_ok hi, exec_crypt_reset hf hp, raiseFault_unlatched hf]; rfl

end Sys2Proof.Machine

open Sys2Proof Sys2Proof.Machine

/-- Settles O8: the event is taken, the frame decoded, the command run. -/
theorem stepRunsTheDecodedCommand : Obligations.StepRunsTheDecodedCommand := fun _ _ _ _ hin hdec =>
  (step_event hin).trans (deliverFrame_ok hdec _)

/-- Settles O9, from the steps of a RESET event and of waiting. -/
theorem resetEventAndWaiting : Obligations.ResetEventAndWaiting :=
  ⟨fun _ _ hin =>
      ⟨_, step_reset hin, resetEvent_phase _, resetEvent_fault _, resetEvent_responses _, resetEvent_inbox _⟩,
    fun _ => step_idle⟩

/-- Settles O10: both fields are constants of the reset state. -/
theorem resetStateControlFields : Obligations.ResetStateControlFields := ⟨rfl, rfl, rfl, rfl⟩

/-- Settles O11: waiting and RESET have a next state, and every frame has an answer. -/
theorem everyStepHasANextState : Obligations.EveryStepHasANextState := step_next

/-- Settles O12: a frame is answered once, with FAULT or with OK. -/
theorem oneResponseForEachCommand : Obligations.OneResponseForEachCommand := by
  intro s t ht
  refine ⟨fun frame rest hin => ?command, fun rest hin => ?reset, fun hin => ?waiting⟩
  case command =>
    obtain ⟨code, -, rfl⟩ | ⟨i, -, hok⟩ := deliverFrame_fault_or_ok ((step_event hin).symm.trans ht)
    · exact ⟨.fault code, rfl, rfl⟩
    · obtain ⟨payload, hresp⟩ := hok.responses
      exact ⟨.ok payload, hresp, hok.inbox⟩
  case reset =>
    obtain rfl := Host.Outcome.next.inj ((step_reset hin).symm.trans ht)
    exact ⟨resetEvent_responses _, resetEvent_inbox _⟩
  case waiting =>
    obtain rfl := Host.Outcome.next.inj ((step_idle hin).symm.trans ht)
    exact ⟨rfl, hin⟩

/-- Settles O17: a FAULT answer has one of the causes of R157, and an OK answer is none. -/
theorem faultPriority : Obligations.FaultPriority := by
  intro s t frame rest code hin ht hresp
  obtain ⟨code', hcause, rfl⟩ | ⟨i, -, hok⟩ := deliverFrame_fault_or_ok ((step_event hin).symm.trans ht)
  · obtain rfl : code' = code := by simpa [State.faulted] using hresp
    exact hcause.imp_right (.imp_right (.imp_right and_or_left.mp))
  · obtain ⟨payload, hpayload⟩ := hok.responses
    simp [hpayload] at hresp

/-- Settles O33: a FAULT answer changes no register, and an OK answer follows a legal command with no fault latched. -/
theorem onlyTheseEventsChangeRegisters : Obligations.OnlyTheseEventsChangeRegisters := by
  intro s t ht
  rcases hin : s.inbox with _ | ⟨_ | frame, rest⟩
  · obtain rfl := Host.Outcome.next.inj ((step_idle hin).symm.trans ht)
    simp
  · exact ⟨fun _ => .inl ⟨rest, rfl⟩, fun _ => .inl ⟨rest, rfl⟩⟩
  · obtain ⟨code, -, rfl⟩ | ⟨i, hi, hok⟩ := deliverFrame_fault_or_ok ((step_event hin).symm.trans ht)
    · simp [State.faulted]
    · refine ⟨fun hchange => .inr ?_, fun _ => .inr ⟨frame, rest, i, rfl, hi, hok.faultBefore, hok.faultAfter⟩⟩
      obtain ⟨rfl, -⟩ | ⟨-, hkey, hiv, -⟩ := hok.effect
      · exact ⟨frame, rest, t.key, t.iv, rfl, hi, hok.faultBefore, rfl, rfl⟩
      · exact absurd hchange (by simp [hkey, hiv])

/-- Settles O35, for both answers. -/
theorem commandsFrame : Obligations.CommandsFrame := by
  intro i s t ht
  obtain ⟨code, rfl⟩ | hok := exec_fault_or_ok ht
  · exact ⟨rfl, rfl, ⟨_, rfl⟩, fun _ => ⟨rfl, rfl⟩, fun _ _ => ⟨rfl, rfl, rfl, rfl⟩⟩
  · obtain ⟨payload, hresp⟩ := hok.responses
    refine ⟨hok.inbox, hok.resets, ⟨_, hresp⟩, fun hi => ?_, fun code hcode => ?_⟩
    · obtain ⟨rfl, -⟩ | ⟨-, hkey, hiv, -⟩ := hok.effect
      · simp at hi
      · exact ⟨hkey, hiv⟩
    · simp [hok.faultAfter] at hcode

/-- Settles O36, over everything GENKW and CRYPT can do. -/
theorem keyRegistersAreNotRead : Obligations.KeyRegistersAreNotRead := by
  intro i s t key iv hi ht
  obtain ⟨t', ht', hother⟩ := exec_with_key_iv hi s key iv
  obtain rfl := Host.Outcome.next.inj (ht'.symm.trans ht)
  exact hother

/-- Settles O37: INIT overwrites the registers, and every other frame is answered with FAULT, whatever they hold. -/
theorem unspecifiedRegistersAreNotRead : Obligations.UnspecifiedRegistersAreNotRead := by
  intro s t frame r key iv hp ht
  obtain ⟨key', iv', hi, hf⟩ | ⟨code, hfault⟩ := deliverFrame_of_phase_reset frame s.fault
  · have hinit (u : State) (hu : u.fault = none) := (deliverFrame_ok hi u).trans (exec_init hu key' iv')
    obtain rfl := Host.Outcome.next.inj ((hinit s hf).symm.trans ht)
    exact ⟨_, hinit { s with cipher := r, key := key, iv := iv } hf, rfl, rfl, rfl, fun _ => rfl⟩
  · obtain rfl := Host.Outcome.next.inj ((hfault s hp rfl).symm.trans ht)
    exact ⟨_, hfault { s with cipher := r, key := key, iv := iv } hp rfl, rfl, rfl, rfl, fun hleft => absurd hp hleft⟩

/-- Settles O20: INIT overwrites every register a RESET event makes unspecified. -/
theorem reinitialisationEqualsReset : Obligations.ReinitialisationEqualsReset := by
  intro s key iv hf
  refine ⟨_, _, exec_init hf key iv, exec_init (resetEvent_fault s) key iv, ?_⟩
  simp [respond, resetEvent, hf]

end

section
/-! SUPPORT. The invariant: the cells stay in `[1, 0x7FFFFFFF]` from the load on (R85, R86), and every event keeps what
`State.Inv` says of registers, phase and latch. -/

namespace Sys2Proof.Machine

/-! ### Range and non-zero law of whole registers (R86) -/

/-- Every cell is in `[1, 0x7FFFFFFF]`. -/
structure CipherRegs.Sound (r : CipherRegs) : Prop where
  inRange : CellsInRange r.lfsr
  nonZero : CellsNonZero r.lfsr

section sound
variable {c : Params} {r : CipherRegs}

theorem loadedRegs_sound (hd : ∀ i, c.dTable i ≠ 0) (key iv : Block) : (loadedRegs c key iv).Sound :=
  ⟨lfsrLoad_inRange c key iv, lfsrLoad_nonZero hd key iv⟩

theorem initRound_sound (hc : c.feedback ≠ []) (h : r.Sound) : (initRound c r).Sound :=
  ⟨advanceInit_inRange c h.inRange (shr1_inRange _), advanceInit_nonZero hc h.inRange h.nonZero (shr1_inRange _)⟩

theorem afterKeyword_sound (hc : c.feedback ≠ []) (h : r.Sound) : (afterKeyword c r).Sound :=
  ⟨advanceWork_inRange c h.inRange, advanceWork_nonZero hc h.inRange h.nonZero⟩

theorem afterKeywords_sound (hc : c.feedback ≠ []) (k : Nat) (h : r.Sound) : (afterKeywords c k r).Sound :=
  repeatRound_keeps (P := CipherRegs.Sound) (fun _ => afterKeyword_sound hc) k h

theorem initialRegs_sound (hd : ∀ i, c.dTable i ≠ 0) (hc : c.feedback ≠ []) (key iv : Block) :
    (initialRegs c key iv).Sound := by
  have hrounds : (repeatRound (initRound c) Config.initRounds (loadedRegs c key iv)).Sound :=
    repeatRound_keeps (P := CipherRegs.Sound) (fun _ => initRound_sound hc) _ (loadedRegs_sound hd key iv)
  exact repeatRound_keeps (P := CipherRegs.Sound) (round := workRoundDiscard c)
    (fun r hr => workRoundDiscard_eq_afterKeyword c r ▸ afterKeyword_sound hc hr) _ hrounds

end sound

/-! ### The invariant, event by event -/

/-- The registers the machine's INIT makes, advanced by any number of keywords, are sound. -/
theorem afterKeywords_initialRegs_sound (k : Nat) (key iv : Block) :
    (afterKeywords Config.params k (initialRegs Config.params key iv)).Sound :=
  afterKeywords_sound (by decide) k (initialRegs_sound (by decide) (by decide) key iv)

theorem cipherFromKey_reset {s : State} (hp : s.phase = .reset) : s.CipherFromKey := by
  simp [State.CipherFromKey, hp]

theorem cipherFromKey_fresh_iff {s : State} (hp : s.phase = .fresh) :
    s.CipherFromKey ↔ s.cipher = initialRegs Config.params s.key s.iv := by
  simp only [State.CipherFromKey, hp]

theorem cipherFromKey_running_iff {s : State} (hp : s.phase = .running) :
    s.CipherFromKey ↔ ∃ k, 0 < k ∧ s.cipher = afterKeywords Config.params k (initialRegs Config.params s.key s.iv) := by
  simp only [State.CipherFromKey, hp]

/-- Once initialised, the registers come from `KEY` and `IV` by some number of keywords. -/
theorem exists_afterKeywords_of_cipherFromKey {s : State} (h : s.CipherFromKey) (hready : s.phase ≠ .reset) :
    ∃ k, s.cipher = afterKeywords Config.params k (initialRegs Config.params s.key s.iv) := by
  obtain hp | hp | hp := phase_cases s
  · exact absurd hp hready
  · exact ⟨0, by rw [afterKeywords_zero, (cipherFromKey_fresh_iff hp).1 h]⟩
  · obtain ⟨k, -, hk⟩ := (cipherFromKey_running_iff hp).1 h
    exact ⟨k, hk⟩

theorem inv_of_phase_reset {s : State} (hp : s.phase = .reset) (hf : s.fault = none) : s.Inv where
  cipherFromKey := cipherFromKey_reset hp
  cellsSound hready := absurd hp hready
  latchAgrees := by simp [State.LatchAgrees, hf]

/-- With no fault latched, where the registers come from settles the range of the cells too. -/
theorem inv_of_cipherFromKey {s : State} (hf : s.fault = none) (h : s.CipherFromKey) : s.Inv where
  cipherFromKey := h
  cellsSound hready := by
    obtain ⟨k, hk⟩ := exists_afterKeywords_of_cipherFromKey h hready
    have hsound := afterKeywords_initialRegs_sound k s.key s.iv
    rw [← hk] at hsound
    exact ⟨hsound.inRange, hsound.nonZero⟩
  latchAgrees := by simp [State.LatchAgrees, hf]

theorem AnswersOk.keeps_inv {i : Instr} {s t : State} (h : AnswersOk i s t) (hs : s.Inv) : t.Inv := by
  refine inv_of_cipherFromKey h.faultAfter ?_
  obtain ⟨-, hphase, hcipher⟩ | ⟨-, hkey, hiv, hready, hphase, n, hn, hcipher⟩ := h.effect
  · exact (cipherFromKey_fresh_iff hphase).2 hcipher
  · obtain ⟨k, hk⟩ := exists_afterKeywords_of_cipherFromKey hs.cipherFromKey hready
    exact (cipherFromKey_running_iff hphase).2 ⟨k + n, by omega, by rw [hcipher, hk, hkey, hiv, afterKeywords_add]⟩

theorem faulted_keeps_inv {frame : List Byte} {s : State} {code : FaultCode} (hcause : FaultCause frame s code)
    (hs : s.Inv) : (s.faulted code).Inv where
  cipherFromKey := hs.cipherFromKey
  cellsSound := hs.cellsSound
  latchAgrees := by
    obtain hf | ⟨-, ⟨-, rfl⟩ | ⟨-, ⟨hp, rfl⟩ | ⟨hp, rfl⟩⟩⟩ := hcause
    · simpa [State.LatchAgrees, State.faulted, hf] using hs.latchAgrees
    · simp [State.LatchAgrees, State.faulted]
    · simp [State.LatchAgrees, State.faulted, hp]
    · simp [State.LatchAgrees, State.faulted, hp]

theorem step_keeps_inv {s t : State} (hs : s.Inv) (ht : step s = .next t) : t.Inv := by
  rcases hin : s.inbox with _ | ⟨_ | frame, rest⟩
  · obtain rfl := Host.Outcome.next.inj ((step_idle hin).symm.trans ht)
    exact hs
  · obtain rfl := Host.Outcome.next.inj ((step_reset hin).symm.trans ht)
    exact inv_of_phase_reset rfl rfl
  · have htaken : State.Inv { s with inbox := rest } := ⟨hs.cipherFromKey, hs.cellsSound, hs.latchAgrees⟩
    obtain ⟨code, hcause, rfl⟩ | ⟨i, -, hok⟩ := deliverFrame_fault_or_ok ((step_event hin).symm.trans ht)
    · exact faulted_keeps_inv hcause htaken
    · exact hok.keeps_inv htaken

end Sys2Proof.Machine

open Sys2Proof Sys2Proof.Machine

/-- Settles O32: every answer keeps the invariant, and so do RESET and waiting. -/
theorem stepKeepsInvariant : Obligations.StepKeepsInvariant := fun _ _ => step_keeps_inv

/-- Settles O31: in phase RESET with no fault latched the invariant asks nothing. -/
theorem resetMeetsInvariant : Obligations.ResetMeetsInvariant := inv_of_phase_reset rfl rfl

/-- Settles O48: the load and the two advances keep the cells sound, and so do INIT and every keyword. -/
theorem cellNonZeroLaw : Obligations.CellNonZeroLaw := fun _ hd hc =>
  ⟨lfsrLoad_nonZero hd, fun _ => advanceWork_nonZero hc, fun _ w h h0 => advanceInit_nonZero hc h h0 (shr1_inRange w),
    fun key iv k =>
      have hsound := afterKeywords_sound hc k (initialRegs_sound hd hc key iv)
      ⟨hsound.inRange, hsound.nonZero⟩⟩

end

section
/-! SUPPORT. Two CRYPTs from one fresh state (R105, R113, R176), and CRYPT's keystream word by word (R107). -/

namespace Sys2Proof.Machine

/-! ### XOR with one keystream -/

theorem xorBytes_take (xs ys : List Byte) (m : Nat) : (xorBytes xs ys).take m = xorBytes (xs.take m) (ys.take m) :=
  List.take_zipWith

/-- Any beginning of a keystream is a keystream. -/
theorem take_keystream (c : Params) (r : CipherRegs) (m n : Nat) :
    (keystream c r n).take m = keystream c r (min m n) := by
  rw [keystream, ← List.map_take, List.take_range, keystream]

/-- Bytes XORed onto both of two data cancel. -/
theorem xorBytes_xorBytes_same {xs ys zs : List Byte} (hx : xs.length = zs.length) (hy : ys.length = zs.length) :
    xorBytes (xorBytes xs zs) (xorBytes ys zs) = xorBytes xs ys := by
  apply List.ext_getElem
  · simp [hx, hy]
  · intro i h1 h2
    simp only [xorBytes, List.getElem_zipWith]
    rw [BitVec.xor_assoc]; simp

theorem xorBytes_zeros (ys : List Byte) : xorBytes (List.replicate ys.length 0) ys = ys := by
  apply List.ext_getElem
  · simp
  · simp [xorBytes]

/-! ### The keystream word by word -/

theorem le32Bytes_eq_map_ksByte {c : Params} (h : c.ksByteOrder = .le) (z : Word) :
    (List.range 4).map (ksByte c z) = le32Bytes z := by
  simp [List.range_succ, ksByte, h, le32Bytes]

/-- One keyword more is four keystream bytes more. -/
theorem keystream_four_succ (c : Params) (r : CipherRegs) (k : Nat) :
    keystream c r (4 * (k + 1)) =
      keystream c r (4 * k) ++ (List.range 4).map (ksByte c (keywordAt c r (k + 1))) := by
  have hbyte (j : Nat) (hj : j < 4) : keystreamByte c r (4 * k + j) = ksByte c (keywordAt c r (k + 1)) j := by
    rw [keystreamByte, show (4 * k + j) / 4 = k by omega, show (4 * k + j) % 4 = j by omega]
  rw [keystream, Nat.mul_succ, List.range_add, List.map_append, List.map_map, ← keystream]
  exact congrArg (keystream c r (4 * k) ++ ·) (List.map_congr_left fun j hj => hbyte j (List.mem_range.1 hj))

/-- CRYPT's keystream is made of the keywords from the second on, least significant byte first (R35, R107). -/
theorem keystream_eq_flatMap {c : Params} (h : c.ksByteOrder = .le) (r : CipherRegs) (k : Nat) :
    keystream c r (4 * k) = ((List.range k).map fun i => keywordAt c r (i + 1)).flatMap le32Bytes := by
  induction k with
  | zero => rfl
  | succ k ih => rw [keystream_four_succ, ih, le32Bytes_eq_map_ksByte h, List.range_succ]; simp

end Sys2Proof.Machine

open Sys2Proof Sys2Proof.Machine

/-- Settles O28: both responses are XORs with beginnings of one keystream. -/
theorem shorterCryptIsABeginning : Obligations.ShorterCryptIsABeginning := by
  intro s data m hf hp
  refine ⟨_, _, _, exec_crypt_fresh hf hp data, rfl, exec_crypt_fresh hf hp (data.take m), ?_⟩
  rw [xorBytes_take, take_keystream, List.length_take]
  rfl

/-- Settles O29: the registers left depend on the number of bytes only, and the keystream cancels. -/
theorem cryptStateIgnoresDataBytes : Obligations.CryptStateIgnoresDataBytes := by
  intro s data data' hf hp hlen
  refine ⟨_, _, _, _, exec_crypt_fresh hf hp data, exec_crypt_fresh hf hp data', rfl, rfl, ?_, ?_⟩
  · rw [hlen]
    rfl
  · rw [hlen]
    exact xorBytes_xorBytes_same (by simp [hlen]) (by simp)

/-- Settles O30: the keywords after the first are the keystream, which CRYPT of zero bytes answers as it is. -/
theorem cryptKeystreamSkipsFirstWord : Obligations.CryptKeystreamSkipsFirstWord := by
  intro s k hf hp hin
  obtain ⟨t, ht, hresp⟩ := runSteps_keystream (k := k + 1) (s := s.withEvents (Pseudo.keystream (k + 1)).events) hf
    (by simp [hp]) (by rw [withEvents_inbox, hin]; rfl)
  have hlen : (Pseudo.keystream (k + 1)).events.length = k + 1 := by simp [Pseudo.events, Pseudo.expand]
  refine ⟨t, _, keywordAt Config.params s.cipher 0,
    (List.range k).map fun i => keywordAt Config.params s.cipher (i + 1), ?_, ?_, exec_crypt_fresh hf hp _, ?_⟩
  · rw [runEvents_of_inbox_nil hin, hlen, ht]
  · rw [hresp, List.range_succ_eq_map, List.map_cons, List.map_map]
    rfl
  · rw [← keystream_eq_flatMap rfl, respond_responses, List.length_replicate]
    have hzeros := xorBytes_zeros (keystream Config.params s.cipher (4 * k))
    rw [keystream_length] at hzeros
    rw [hzeros]

end

section
/-! SUPPORT. The vector V0: the registers are evaluated once and both keywords are read off them
(95_test_vectors.md 3.1). -/

open Sys2Proof Sys2Proof.Machine

set_option maxRecDepth 100000

/-- Settles O52: the load, 33 rounds and two keywords, evaluated. -/
theorem vectorV0 : Obligations.VectorV0 := by
  unfold Obligations.VectorV0
  intro zeros r
  have hregs : r = ⟨#v[0x747CA0C4, 0x6259DD0B, 0x47A94C2B, 0x3A89C82E, 0x32B433FC, 0x231EA13F, 0x31711E42, 0x4CCCE955,
      0x3FB6071E, 0x161D3512, 0x7114B136, 0x5154D452, 0x78C69A74, 0x4F26BA6B, 0x3E1B8D6A, 0x7F08E141],
      0x3512BF50, 0xA0920453⟩ := by decide
  clear_value r
  subst hregs
  exact ⟨rfl, by decide, by decide⟩

end

section
/-! SUPPORT. The host's containers: `crypt` on a fresh engine (R142), what each operation checks and in which order
(R131, R132, R135), and a container of a plaintext, which opens to it (R143). -/

namespace Sys2Proof.Machine

/-! ### The checksum (R129) -/

theorem checksum_concat (data : List Byte) (b : Byte) :
    checksum (data ++ [b]) = ((checksum data + b.setWidth 32) * 31) &&& 0xFFFFFF := by
  simp [checksum]

theorem checksum_lt (data : List Byte) : (checksum data).toNat < 2 ^ 24 := by
  rcases data.eq_nil_or_concat with rfl | ⟨data, b, rfl⟩
  · simp [checksum]
  · rw [List.concat_eq_append, checksum_concat, BitVec.toNat_and]
    exact Nat.lt_of_le_of_lt Nat.and_le_right (by decide)

/-! ### `crypt` on a fresh engine (R142, R167) -/

/-- The keystream a container's data meet. -/
def ExpandedKey.keystream (ek : ExpandedKey) (n : Nat) : List Byte :=
  Machine.keystream Config.params (initialRegs Config.params ek.cipherKey ek.cipherIv) n

@[simp] theorem expandedKey_keystream_length (ek : ExpandedKey) (n : Nat) : (ek.keystream n).length = n :=
  keystream_length _ _ n

theorem freshCrypt_eq (key iv : Block) {data : List Byte} (hlen : data.length ≤ Config.params.maxLen) :
    freshCrypt key iv data =
      .ok (xorBytes data (keystream Config.params (initialRegs Config.params key iv) data.length)) := by
  obtain ⟨t, ht, hresp⟩ := runEvents_encrypt (s := State.reset) rfl key iv hlen
  have hreset : State.reset.responses = [] := rfl
  simp only [freshCrypt, ht, hresp, hreset, List.nil_append]

/-- Every plaintext of a container fits in a frame (R110, R127). -/
theorem le_maxLen_of_le_maxPlaintext {n : Nat} (h : n ≤ maxPlaintext) : n ≤ Config.params.maxLen :=
  h.trans (by decide)

/-! ### Passwords (R123) -/

theorem expand_error (seed0 : Word) {password : List Byte} (h : password.length < 4 ∨ 64 < password.length) :
    expand seed0 password = .error .keyLength :=
  if_neg (by omega)

theorem deriveKey_of_expand_ok {seed0 : Word} {password : List Byte} {ek : ExpandedKey}
    (h : expand seed0 password = .ok ek) : deriveKey seed0 password = .ok ek := by
  simp only [deriveKey, h]

theorem deriveKey_of_expand_error {seed0 : Word} {password : List Byte} {e : HostError}
    (h : expand seed0 password = .error e) : deriveKey seed0 password = .error (.error e) := by
  simp only [deriveKey, h]

/-! ### `encrypt` (R131, R135) -/

theorem checkCapacity_ok {plaintext : List Byte} (h : plaintext.length ≤ maxPlaintext) :
    checkCapacity plaintext = .ok () :=
  if_neg (by omega)

theorem checkCapacity_error {plaintext : List Byte} (h : maxPlaintext < plaintext.length) :
    checkCapacity plaintext = .error .capacityExceeded :=
  if_pos h

theorem checkPlaintext_eq_checkCapacity {plaintext : List Byte} (h : isContainer plaintext = false)
    (h0 : 0 < plaintext.length) : checkPlaintext plaintext = checkCapacity plaintext := by
  simp [checkPlaintext, h, List.ne_nil_of_length_pos h0]

theorem length_of_checkPlaintext_ok {plaintext : List Byte} (h : checkPlaintext plaintext = .ok ()) :
    0 < plaintext.length ∧ plaintext.length ≤ maxPlaintext := by
  unfold checkPlaintext checkCapacity at h
  split_ifs at h with _ hempty hcap
  simp only [List.isEmpty_iff] at hempty
  exact ⟨List.length_pos_of_ne_nil hempty, by omega⟩

theorem encrypt_of_check_error {plaintext : List Byte} {e : HostError} (h : checkPlaintext plaintext = .error e)
    (seed0 : Word) (password : List Byte) : encrypt seed0 password plaintext = .error (.error e) := by
  simp only [encrypt, h]

theorem encrypt_of_expand_error {plaintext : List Byte} (h : checkPlaintext plaintext = .ok ()) {seed0 : Word}
    {password : List Byte} {e : HostError} (hkey : expand seed0 password = .error e) :
    encrypt seed0 password plaintext = .error (.error e) := by
  simp only [encrypt, h, deriveKey_of_expand_error hkey]

theorem encrypt_of_expand_ok {plaintext : List Byte} (h : checkPlaintext plaintext = .ok ()) {seed0 : Word}
    {password : List Byte} {ek : ExpandedKey} (hkey : expand seed0 password = .ok ek) :
    encrypt seed0 password plaintext = sealPlaintext ek plaintext := by
  simp only [encrypt, h, deriveKey_of_expand_ok hkey]

/-- The header of a plaintext's container (R131). -/
def headerOf (plaintext : List Byte) : ContainerHeader := ⟨BitVec.ofNat 32 plaintext.length, checksum plaintext⟩

/-- The container of a plaintext (R131). -/
def containerOf (ek : ExpandedKey) (plaintext : List Byte) : List Byte :=
  (headerOf plaintext).bytes ++ xorBytes plaintext (ek.keystream plaintext.length)

theorem sealPlaintext_eq (ek : ExpandedKey) {plaintext : List Byte} (h : plaintext.length ≤ maxPlaintext) :
    sealPlaintext ek plaintext = .ok (containerOf ek plaintext) := by
  simp only [sealPlaintext, freshCrypt_eq _ _ (le_maxLen_of_le_maxPlaintext h), containerOf, headerOf,
    ExpandedKey.keystream]

theorem encrypt_ok {seed0 : Word} {password plaintext container : List Byte}
    (h : encrypt seed0 password plaintext = .ok container) :
    ∃ ek, expand seed0 password = .ok ek ∧ 0 < plaintext.length ∧ plaintext.length ≤ maxPlaintext ∧
      container = containerOf ek plaintext := by
  cases hcheck : checkPlaintext plaintext with
  | error e => simp [encrypt_of_check_error hcheck] at h
  | ok =>
    obtain ⟨hpos, hmax⟩ := length_of_checkPlaintext_ok hcheck
    cases hkey : expand seed0 password with
    | error e => simp [encrypt_of_expand_error hcheck hkey] at h
    | ok ek =>
      rw [encrypt_of_expand_ok hcheck hkey, sealPlaintext_eq ek hmax] at h
      exact ⟨ek, rfl, hpos, hmax, (Except.ok.inj h).symm⟩

/-! ### `decrypt` (R132) -/

theorem checkContainer_format {container : List Byte}
    (h : container.length < headerLength ∨ isContainer container = false) :
    checkContainer container = .error .format := by
  have hparse : parseHeader container = .error .format := by
    unfold parseHeader
    by_cases hlen : container.length < headerLength
    · rw [if_pos hlen]
    · rw [if_neg hlen, if_pos (by simpa using h.resolve_left hlen)]
  simp only [checkContainer, hparse]

theorem checkContainer_bytes_size {h : ContainerHeader} (body : List Byte)
    (hsize : h.originalSize.toInt < 1 ∨ 4084 < h.originalSize.toInt) :
    checkContainer (h.bytes ++ body) = .error .format := by
  have hparse : parseHeader (h.bytes ++ body) = .error .format := by
    have hm : (maxPlaintext : Int) = 4084 := rfl
    have hout : h.originalSize.toInt ≤ 0 ∨ (maxPlaintext : Int) < h.originalSize.toInt := by omega
    unfold parseHeader
    rw [wordAt_originalSize, wordAt_checksum, isContainer_bytes, if_neg (by simp), if_neg (by simp), if_pos hout]
  simp only [checkContainer, hparse]

/-- A container is refused before any operation, or the operation runs with the password's key (R132). -/
theorem onContainer_of_check_error {container : List Byte} {e : HostError} (h : checkContainer container = .error e)
    (seed0 : Word) (password : List Byte) (operation : ExpandedKey → Except HostStop (List Byte)) :
    onContainer seed0 password container operation = .error (.error e) := by
  simp only [onContainer, h]

theorem onContainer_of_expand_error {container : List Byte} {hd : ContainerHeader}
    (h : checkContainer container = .ok hd) {seed0 : Word} {password : List Byte} {e : HostError}
    (hkey : expand seed0 password = .error e) (operation : ExpandedKey → Except HostStop (List Byte)) :
    onContainer seed0 password container operation = .error (.error e) := by
  simp only [onContainer, h, deriveKey_of_expand_error hkey]

theorem onContainer_of_expand_ok {container : List Byte} {hd : ContainerHeader}
    (h : checkContainer container = .ok hd) {seed0 : Word} {password : List Byte} {ek : ExpandedKey}
    (hkey : expand seed0 password = .ok ek) (operation : ExpandedKey → Except HostStop (List Byte)) :
    onContainer seed0 password container operation = operation ek := by
  simp only [onContainer, h, deriveKey_of_expand_ok hkey]

/-- Container and password decide whether an operation runs, whichever operation it is. -/
theorem onContainer_cases (seed0 : Word) (password container : List Byte) :
    (∃ stop, ∀ operation, onContainer seed0 password container operation = .error stop) ∨
    ∃ ek, ∀ operation, onContainer seed0 password container operation = operation ek := by
  cases hcheck : checkContainer container with
  | error e => exact .inl ⟨_, onContainer_of_check_error hcheck seed0 password⟩
  | ok hd =>
    cases hkey : expand seed0 password with
    | error e => exact .inl ⟨_, onContainer_of_expand_error hcheck hkey⟩
    | ok ek => exact .inr ⟨ek, onContainer_of_expand_ok hcheck hkey⟩

/-- A header whose size is in its range and whose data are all there (R132). -/
structure ContainerHeader.Fits (h : ContainerHeader) (body : List Byte) : Prop where
  pos : 1 ≤ h.originalSize.toInt
  le_maxPlaintext : h.originalSize.toInt ≤ 4084
  le_length : h.originalSize.toNat ≤ body.length

theorem ContainerHeader.Fits.checkContainer_eq {h : ContainerHeader} {body : List Byte} (hfits : h.Fits body) :
    checkContainer (h.bytes ++ body) = .ok h := by
  rw [checkContainer_bytes body hfits.pos hfits.le_maxPlaintext, if_neg (Nat.not_lt.2 hfits.le_length)]

theorem toNat_le_of_toInt_le {w : Word} (h : 1 ≤ w.toInt) (h' : w.toInt ≤ 4084) : w.toNat ≤ maxPlaintext := by
  have hm : maxPlaintext = 4084 := rfl
  rw [BitVec.toInt_eq_toNat_cond] at h h'
  have := w.isLt
  split_ifs at h h' <;> omega

/-- Steps 3 to 5 of `decrypt`: the data XORed with the keystream are the plaintext if their checksum is the header's. -/
theorem decryptWith_bytes (ek : ExpandedKey) {h : ContainerHeader} {body : List Byte} (hfits : h.Fits body) :
    decryptWith ek (h.bytes ++ body) =
      if checksum (xorBytes (body.take h.originalSize.toNat) (ek.keystream h.originalSize.toNat)) = h.checksum
      then .ok (xorBytes (body.take h.originalSize.toNat) (ek.keystream h.originalSize.toNat))
      else .error (.error .integrity) := by
  have hmax := toNat_le_of_toInt_le hfits.pos hfits.le_maxPlaintext
  have hlen : (body.take h.originalSize.toNat).length = h.originalSize.toNat := by
    rw [List.length_take, Nat.min_eq_left hfits.le_length]
  have hcrypt := freshCrypt_eq ek.cipherKey ek.cipherIv (le_maxLen_of_le_maxPlaintext (hlen.trans_le hmax))
  rw [hlen, ← ExpandedKey.keystream] at hcrypt
  simp only [decryptWith, hfits.checkContainer_eq, drop_headerLength, openCiphertext, hcrypt]

/-! ### The container of a plaintext opens to it (R143) -/

theorem headerOf_fits {plaintext body : List Byte} (hpos : 0 < plaintext.length)
    (hmax : plaintext.length ≤ maxPlaintext) (hbody : body.length = plaintext.length) :
    (headerOf plaintext).originalSize.toNat = plaintext.length ∧ (headerOf plaintext).Fits body := by
  have hm : maxPlaintext = 4084 := rfl
  have hn : (headerOf plaintext).originalSize.toNat = plaintext.length := by
    rw [headerOf, BitVec.toNat_ofNat, Nat.mod_eq_of_lt (by omega)]
  have hi : (headerOf plaintext).originalSize.toInt = plaintext.length := by
    rw [BitVec.toInt_eq_toNat_of_lt (by omega), hn]
  exact ⟨hn, by omega, by omega, by omega⟩

section containerOf
variable (ek : ExpandedKey) {plaintext : List Byte} (hpos : 0 < plaintext.length)
  (hmax : plaintext.length ≤ maxPlaintext)
include hpos hmax

theorem checkContainer_containerOf : checkContainer (containerOf ek plaintext) = .ok (headerOf plaintext) :=
  (headerOf_fits hpos hmax (by simp)).2.checkContainer_eq

theorem decryptWith_containerOf : decryptWith ek (containerOf ek plaintext) = .ok plaintext := by
  obtain ⟨hn, hfits⟩ := headerOf_fits (body := xorBytes plaintext (ek.keystream plaintext.length)) hpos hmax (by simp)
  have hopen : xorBytes ((xorBytes plaintext (ek.keystream plaintext.length)).take plaintext.length)
      (ek.keystream plaintext.length) = plaintext := by
    rw [List.take_of_length_le (by simp), xorBytes_xorBytes (by simp)]
  rw [containerOf, decryptWith_bytes ek hfits, hn, hopen]
  exact if_pos rfl

theorem decrypt_containerOf {seed0 : Word} {password : List Byte} (hkey : expand seed0 password = .ok ek) :
    decrypt seed0 password (containerOf ek plaintext) = .ok plaintext :=
  (onContainer_of_expand_ok (checkContainer_containerOf ek hpos hmax) hkey _).trans
    (decryptWith_containerOf ek hpos hmax)

end containerOf

/-! ### `append` and `prepend` (R133, R134) -/

theorem reseal_of_decrypt_error {ek : ExpandedKey} {container : List Byte} {stop : HostStop}
    (h : decryptWith ek container = .error stop) (combine : List Byte → List Byte) :
    reseal ek container combine = .error stop := by
  simp only [reseal, h]

theorem reseal_of_capacity_error {ek : ExpandedKey} {container old : List Byte} (h : decryptWith ek container = .ok old)
    {combine : List Byte → List Byte} (hcap : maxPlaintext < (combine old).length) :
    reseal ek container combine = .error (.error .capacityExceeded) := by
  simp only [reseal, h, checkCapacity_error hcap]

theorem reseal_ok {ek : ExpandedKey} {container old : List Byte} (h : decryptWith ek container = .ok old)
    {combine : List Byte → List Byte} (hcap : (combine old).length ≤ maxPlaintext) :
    reseal ek container combine = .ok (containerOf ek (combine old)) := by
  simp only [reseal, h, checkCapacity_ok hcap, sealPlaintext_eq ek hcap]

/-- An operation that reseals a plaintext's container gives the container of the new plaintext, which opens to it. -/
theorem onContainer_reseal_decrypt {seed0 : Word} {password plaintext : List Byte} {ek : ExpandedKey}
    (hkey : expand seed0 password = .ok ek) (hpos : 0 < plaintext.length) (hmax : plaintext.length ≤ maxPlaintext)
    (combine : List Byte → List Byte) (hpos' : 0 < (combine plaintext).length)
    (hmax' : (combine plaintext).length ≤ maxPlaintext) :
    ∃ longer, onContainer seed0 password (containerOf ek plaintext)
        (fun ek' => reseal ek' (containerOf ek plaintext) combine) = .ok longer ∧
      decrypt seed0 password longer = .ok (combine plaintext) :=
  ⟨_, (onContainer_of_expand_ok (checkContainer_containerOf ek hpos hmax) hkey _).trans
      (reseal_ok (decryptWith_containerOf ek hpos hmax) hmax'), decrypt_containerOf ek hpos' hmax' hkey⟩

/-- A resealing operation refuses what `decrypt` refuses. -/
theorem onContainer_reseal_of_decrypt_error {seed0 : Word} {password container : List Byte} {stop : HostStop}
    (h : decrypt seed0 password container = .error stop) (combine : List Byte → List Byte) :
    onContainer seed0 password container (fun ek => reseal ek container combine) = .error stop := by
  obtain ⟨stop', hstop⟩ | ⟨ek, hrun⟩ := onContainer_cases seed0 password container
  · exact (hstop _).trans ((hstop _).symm.trans h)
  · exact (hrun _).trans (reseal_of_decrypt_error ((hrun _).symm.trans h) combine)

/-- A resealing operation refuses a new plaintext that does not fit. -/
theorem onContainer_reseal_of_capacity_error {seed0 : Word} {password container old : List Byte}
    (h : decrypt seed0 password container = .ok old) {combine : List Byte → List Byte}
    (hcap : maxPlaintext < (combine old).length) :
    onContainer seed0 password container (fun ek => reseal ek container combine) =
      .error (.error .capacityExceeded) := by
  obtain ⟨stop', hstop⟩ | ⟨ek, hrun⟩ := onContainer_cases seed0 password container
  · simp [decrypt, hstop] at h
  · exact (hrun _).trans (reseal_of_capacity_error ((hrun _).symm.trans h) hcap)

end Sys2Proof.Machine

open Sys2Proof Sys2Proof.Machine

/-- Settles O53, from the run of RESET, INIT and CRYPT. -/
theorem hostNeverSeesAnEngineFault : Obligations.HostNeverSeesAnEngineFault := fun key iv _ hlen =>
  freshCrypt_eq key iv hlen

/-- Settles O58: every step of the fold ends in the mask of 24 bits. -/
theorem checksumRangeAndExample : Obligations.ChecksumRangeAndExample := ⟨checksum_lt, by decide⟩

/-- Settles O55: `encrypt` gives the plaintext's container, which opens to it. -/
theorem containerRoundTrip : Obligations.ContainerRoundTrip := by
  intro seed0 password plaintext h4 h64 hpos hmax hplain
  obtain ⟨ek, hkey, -⟩ := expand_ok_getElem seed0 h4 h64
  have hcheck : checkPlaintext plaintext = .ok () :=
    (checkPlaintext_eq_checkCapacity hplain hpos).trans (checkCapacity_ok hmax)
  refine ⟨containerOf ek plaintext, (encrypt_of_expand_ok hcheck hkey).trans (sealPlaintext_eq ek hmax), ?_,
    isContainer_bytes _ _, decrypt_containerOf ek hpos hmax hkey⟩
  simp [containerOf, headerLength]

/-- Settles O56: both operations reseal the old plaintext with the extra text. -/
theorem appendAndPrepend : Obligations.AppendAndPrepend := by
  intro seed0 password plaintext extra container henc hfit
  obtain ⟨ek, hkey, hpos, hmax, rfl⟩ := encrypt_ok henc
  have hm : maxPlaintext = 4084 := rfl
  exact ⟨onContainer_reseal_decrypt hkey hpos hmax (fun old => old ++ newline :: extra) (by simp) (by simp; omega),
    onContainer_reseal_decrypt hkey hpos hmax (fun old => extra ++ newline :: old) (by simp) (by simp; omega)⟩

/-- Settles O57, check by check in the order the operations make them. -/
theorem hostErrors : Obligations.HostErrors := by
  refine ⟨fun seed0 _ => expand_error seed0, ?alreadyEncrypted, ?emptyInput, ?capacity, ?keyLength, ?format, ?size,
    ?opened, ?resealed⟩
  case alreadyEncrypted =>
    exact fun seed0 password plaintext h => encrypt_of_check_error (by simp [checkPlaintext, h]) seed0 password
  case emptyInput => exact fun seed0 password => encrypt_of_check_error rfl seed0 password
  case capacity =>
    intro seed0 password plaintext hplain hlong _ _
    exact encrypt_of_check_error
      ((checkPlaintext_eq_checkCapacity hplain (by omega)).trans (checkCapacity_error hlong)) seed0 password
  case keyLength =>
    intro seed0 password plaintext hplain hpos hmax hkey
    exact encrypt_of_expand_error ((checkPlaintext_eq_checkCapacity hplain hpos).trans (checkCapacity_ok hmax))
      (expand_error seed0 hkey)
  case format => exact fun seed0 password _ h => onContainer_of_check_error (checkContainer_format h) seed0 password _
  case size =>
    exact fun seed0 password body _ h => onContainer_of_check_error (checkContainer_bytes_size body h) seed0 password _
  case opened =>
    intro seed0 password body h hlow hhigh
    refine ⟨fun hshort => ?truncated, fun hlen hkey => ?keyLength, fun hlen ek hkey => ?opened⟩
    case truncated =>
      exact onContainer_of_check_error ((checkContainer_bytes body hlow hhigh).trans (if_pos hshort)) seed0 password _
    case keyLength =>
      exact onContainer_of_expand_error (ContainerHeader.Fits.checkContainer_eq ⟨hlow, hhigh, hlen⟩)
        (expand_error seed0 hkey) _
    case opened =>
      have hfits : h.Fits body := ⟨hlow, hhigh, hlen⟩
      have hdecrypt : decrypt seed0 password (h.bytes ++ body) = _ :=
        (onContainer_of_expand_ok hfits.checkContainer_eq hkey _).trans (decryptWith_bytes ek hfits)
      exact ⟨fun hne => hdecrypt.trans (if_neg hne), fun heq => hdecrypt.trans (if_pos heq)⟩
  case resealed =>
    intro seed0 password container extra
    have hm : maxPlaintext = 4084 := rfl
    exact ⟨fun stop h => ⟨onContainer_reseal_of_decrypt_error h _, onContainer_reseal_of_decrypt_error h _⟩,
      fun old h hlong => ⟨onContainer_reseal_of_capacity_error h (by simp; omega),
        onContainer_reseal_of_capacity_error h (by simp; omega)⟩⟩

end

section
/-! SUPPORT. How a command on files ends: exit statuses (R138), the write policy (R139), and reads that fail (R140). -/

namespace Sys2Proof.Machine

/-! ### Exit statuses (R138) -/

theorem status_ne_zero {e : CommandEnd} {stop : HostStop} (h : e.result = .error stop) : e.status ≠ 0 := by
  simp [CommandEnd.status, h]

theorem status_eq_zero {e : CommandEnd} {new : List Byte} (h : e.result = .ok new) : e.status = 0 := by
  simp [CommandEnd.status, h]

/-! ### A command that rewrites a file (R139) -/

section rewriteFile
variable {fs : FileStore} {keyPath path : String} {operation : List Byte → List Byte → Except HostStop (List Byte)}
  {outcomes : FileOutcomes}

/-- The reads and the operation succeed, and the operation gives the new contents. -/
def Rewrites (fs : FileStore) (keyPath path : String) (operation : List Byte → List Byte → Except HostStop (List Byte))
    (outcomes : FileOutcomes) (new : List Byte) : Prop :=
  ∃ password old, fs.readBoth keyPath path outcomes = .ok (password, old) ∧ operation password old = .ok new

/-- A rewrite that fails leaves the files as they were, or its file empty after a failed write. -/
theorem rewriteFile_error {stop : HostStop}
    (h : (rewriteFile fs keyPath path operation outcomes).result = .error stop) :
    (rewriteFile fs keyPath path operation outcomes).store = fs ∨
    outcomes.write = .failedAfterTruncation ∧ stop = .error .io ∧
      (rewriteFile fs keyPath path operation outcomes).store = fs.replace path [] ∧
      ∃ new, Rewrites fs keyPath path operation outcomes new := by
  obtain ⟨e, -, hend⟩ | ⟨_, _, _, -, -, hend⟩ | ⟨password, old, new, hread, hop, hend⟩ :=
    rewriteFile_cases fs keyPath path operation outcomes
  · exact .inl (congrArg CommandEnd.store hend)
  · exact .inl (congrArg CommandEnd.store hend)
  · cases hw : outcomes.write with
    | done => simp [hend, hw] at h
    | failedBeforeTruncation =>
      rw [hw] at hend
      exact .inl (congrArg CommandEnd.store hend)
    | failedAfterTruncation =>
      rw [hw] at hend
      have hstop : Except.error stop = .error (.error .io) := h.symm.trans (congrArg CommandEnd.result hend)
      exact .inr ⟨rfl, Except.error.inj hstop, congrArg CommandEnd.store hend, new, password, old, hread, hop⟩

/-- A rewrite that succeeds had no access fail, and its file holds what the operation gave. -/
theorem rewriteFile_ok {new : List Byte} (h : (rewriteFile fs keyPath path operation outcomes).result = .ok new) :
    outcomes = ⟨.done, .done, .done⟩ ∧
      (rewriteFile fs keyPath path operation outcomes).store = fs.replace path new ∧
      Rewrites fs keyPath path operation outcomes new := by
  obtain ⟨e, -, hend⟩ | ⟨_, _, _, -, -, hend⟩ | ⟨password, old, new', hread, hop, hend⟩ :=
    rewriteFile_cases fs keyPath path operation outcomes
  · simp [hend] at h
  · simp [hend] at h
  · obtain ⟨hkey, hfile, -, -⟩ := readBoth_ok hread
    cases hw : outcomes.write with
    | done =>
      rw [hw] at hend
      obtain rfl : new' = new := Except.ok.inj ((congrArg CommandEnd.result hend).symm.trans h)
      have houtcomes : outcomes = ⟨outcomes.keyRead, outcomes.fileRead, outcomes.write⟩ := rfl
      rw [hkey, hfile, hw] at houtcomes
      exact ⟨houtcomes, congrArg CommandEnd.store hend, password, old, hread, hop⟩
    | failedBeforeTruncation => simp [hend, hw] at h
    | failedAfterTruncation => simp [hend, hw] at h

end rewriteFile

/-! ### Reads that fail (R140) -/

theorem read_missing {fs : FileStore} {path : String} (h : fs.contents path = none) (outcome : ReadOutcome) :
    fs.read path outcome = .error .io := by
  cases outcome <;> simp [FileStore.read, h]

theorem readBoth_error {fs : FileStore} {keyPath path : String} {outcomes : FileOutcomes}
    (h : outcomes.keyRead = .failed ∨ outcomes.fileRead = .failed ∨ fs.contents keyPath = none ∨
      fs.contents path = none) : ∃ e, fs.readBoth keyPath path outcomes = .error e := by
  cases hread : fs.readBoth keyPath path outcomes with
  | error e => exact ⟨e, rfl⟩
  | ok both =>
    obtain ⟨hkey, hfile, ⟨bytes, hkeyFile⟩, hold⟩ := readBoth_ok (password := both.1) (old := both.2) hread
    simp [hkey, hfile, hkeyFile, hold] at h

theorem rewriteFile_of_readBoth_error {fs : FileStore} {keyPath path : String} {outcomes : FileOutcomes}
    {e : HostError} (h : fs.readBoth keyPath path outcomes = .error e)
    (operation : List Byte → List Byte → Except HostStop (List Byte)) :
    rewriteFile fs keyPath path operation outcomes = ⟨fs, .error (.error e)⟩ := by
  simp only [rewriteFile, h]

theorem displayFile_of_readBoth_error {fs : FileStore} {keyPath path : String} {outcomes : FileOutcomes}
    {e : HostError} (h : fs.readBoth keyPath path outcomes = .error e) :
    displayFile fs keyPath path outcomes = ⟨fs, .error (.error e)⟩ := by
  simp only [displayFile, h]

end Sys2Proof.Machine

open Sys2Proof Sys2Proof.Machine

/-- Settles O59: the three commands by name are rewrites, and a rewrite ends in one of three ways. -/
theorem failedCommandsSpareFiles : Obligations.FailedCommandsSpareFiles := by
  intro fs keyPath path extra outcomes spares
  have hspares (operation) : spares operation (rewriteFile fs keyPath path operation outcomes) := by
    constructor
    · intro stop h
      refine ⟨status_ne_zero h, ?_⟩
      obtain hstore | ⟨hwrite, hstop, hstore, new, password, old, hread, hop⟩ := rewriteFile_error h
      · rw [hstore]
        exact ⟨fun _ _ => rfl, .inl rfl⟩
      · rw [hstore]
        exact ⟨fun _ hne => contents_replace_ne fs [] hne,
          .inr ⟨hwrite, hstop, contents_replace fs path [], password, old, new, hread, hop⟩⟩
    · intro new h
      obtain ⟨houtcomes, hstore, hrewrites⟩ := rewriteFile_ok h
      rw [hstore]
      exact ⟨status_eq_zero h, houtcomes, fun _ hne => contents_replace_ne fs new hne, contents_replace fs path new,
        hrewrites⟩
  exact ⟨hspares, hspares _, hspares _, hspares _⟩

/-- Settles O60: past both reads the files exist and neither read failed. -/
theorem readFailures : Obligations.ReadFailures := by
  intro fs keyPath path outcomes
  refine ⟨read_failed fs path, fun h => read_missing h outcomes.fileRead, fun h => ?_⟩
  obtain ⟨e, he⟩ := readBoth_error h
  refine ⟨fun operation => ?_, ?_⟩
  · rw [rewriteFile_of_readBoth_error he]
    exact ⟨rfl, e, rfl⟩
  · rw [displayFile_of_readBoth_error he]
    exact ⟨rfl, e, rfl⟩

end
